-- ==== Sys2Proof/Word.lean ====
section
/-! DEFINITION. The widths of the machine (spec/00_scope.md R4 to R7): Words, flag masks, register
indices, and the two readings of a Word as a signed integer. -/

namespace Sys2Proof

/-- A Word: an unsigned integer of exactly 32 bits (R5). A register, a memory word and an address are
Words. Bit 0 is the least significant bit (R6), as in `BitVec`. -/
abbrev Word := BitVec 32

/-- The type `FLAGS` of the condition flags and of a predicate: a 4-bit mask (R4, R16). -/
abbrev Flags := BitVec 4

/-- A register index, 0 to 15, as the 4-bit fields of an instruction carry it (R10, R64). -/
abbrev RegIdx := BitVec 4

/-- `signed(w)` of R7: the integer a Word stands for in two's complement. -/
abbrev signed (w : Word) : Int := w.toInt

/-- `word(s) = s mod 2^32` of R7. -/
abbrev word (s : Int) : Word := BitVec.ofInt 32 s

end Sys2Proof
end

