-- ==== Sys2Proof/Config.lean ====
section
/-! DEFINITION. The free values of the model: what spec/ leaves without a value. They have no body, so
nothing in Lean can evaluate one or prove a value of it, and every statement holds whatever they are.
(The parameters to which the spec gives a default stand in Machine/Params.lean, Decode.lean and
Machine/Flags.lean, where a later repair may reach them.) -/

namespace Sys2Proof

/-- FREE VALUE (notes/assumptions/2.md). The word that the memory holds at an address where neither the
host nor a STORE has placed one: "otherwise unspecified" (spec/92_eei_decisions.md D16, U8: "any value").
A function of the address, because reads of the memory are idempotent (R47). -/
opaque Config.unloadedWord : Nat → Word

/-- FREE VALUE (notes/assumptions/14.md). The data output of the bit extractor while `range_invalid` is 1: "then
`field` is not to be used" (R27). A function of the unit's inputs `word`, `from_bit`, `to_bit` and `signed_sel`,
because the unit is combinational (R202). Each unit has a free value of its own. -/
opaque Config.extractorInvalid : Word → BitVec 5 → BitVec 5 → Bool → Word

/-- FREE VALUE (notes/assumptions/14.md). The data output of the bit inserter while `range_invalid` is 1 (R28), of
its inputs `field_value`, `word`, `from_bit` and `to_bit`. -/
opaque Config.inserterInvalid : Word → Word → BitVec 5 → BitVec 5 → Word

/-- FREE VALUE (notes/assumptions/14.md). The data output of the sign-extension unit while `width_invalid` is 1
(R29), of its inputs `field` and `width`. -/
opaque Config.extenderInvalid : Word → BitVec 6 → Word

end Sys2Proof
end

