-- ==== Sys2Proof/Machine/Failure.lean ====
section
/-! DEFINITION. The failure conditions and their codes (spec/60_exceptions.md R161 to R166). -/

namespace Sys2Proof.Machine

/-- A failure record: the condition and the information recorded with it (table of R161). -/
inductive Failure where
  /-- Code 1: construct of the codec was given a bad range (R162). No instruction raises it. -/
  | invalidRange (fromBit toBit : Int)
  /-- Code 2: the standalone sign_extend was given a width of 1 or less (R163). No instruction raises it. -/
  | invalidWidth (width : Int)
  /-- Code 3: the decoder met a word whose op field names no opcode (R164). -/
  | invalidOpcode (w : Word)
  /-- Code 4: the memory rejected an address, at fetch, LOAD read or STORE write (R165). -/
  | memoryFault (addr : Word)
  /-- Code 5: the selection of a register with an index above 15 (R166). Raised by `execWith` under a layout with
  wider register fields; unreachable under the spec's layout (R64). -/
  | invalidRegisterIndex (index : Word)
deriving DecidableEq, Repr

/-- The code of a failure (R161). Code 0, no failure, is `faultCode none` of Machine/HostInterface.lean. -/
def Failure.code : Failure → BitVec 4
  | .invalidRange _ _ => 1
  | .invalidWidth _ => 2
  | .invalidOpcode _ => 3
  | .memoryFault _ => 4
  | .invalidRegisterIndex _ => 5

/-- The information word of a failure that the sequencer's `fault` latch can hold (R20, R161). The codec
units' failures have no information word: they show on `range_invalid` and `width_invalid` (R161). -/
def Failure.info : Failure → Option Word
  | .invalidRange _ _ => none
  | .invalidWidth _ => none
  | .invalidOpcode w => some w
  | .memoryFault addr => some addr
  | .invalidRegisterIndex index => some index

end Sys2Proof.Machine
end

