-- ==== Sys2Proof/Machine/Codec.lean ====
section
/-! DEFINITION. The BitField codec (spec/40_bitfield_codec.md R80 to R97) and the ports of its three
combinational units (spec/10_state.md R27 to R29). -/

namespace Sys2Proof.Machine

/-- A BitField descriptor (R80). It carries the proof of R81's condition, so that no descriptor exists
for a range that construct rejects. -/
structure BitField where
  fromBit : Nat
  toBit : Nat
  valid : fromBit ≤ toBit ∧ toBit ≤ 31
deriving DecidableEq, Repr

/-- construct(from_bit, to_bit): on integers, failing with `InvalidRange` unless
0 ≤ from_bit ≤ to_bit ≤ 31 (R81). -/
def construct (f t : Int) : Except Failure BitField :=
  if h : 0 ≤ f ∧ f ≤ t ∧ t ≤ 31 then
    .ok { fromBit := f.toNat, toBit := t.toNat, valid := by omega }
  else .error (.invalidRange f t)

/-- field_width (R82). -/
def BitField.fieldWidth (d : BitField) : Nat := d.toBit - d.fromBit + 1

/-- mask, computed over the integers as R82 writes it. -/
def BitField.mask (d : BitField) : Word := BitVec.ofNat 32 ((2 ^ d.fieldWidth - 1) * 2 ^ d.fromBit)

/-- mask_comp (R82). -/
def BitField.maskComp (d : BitField) : Word := BitVec.ofNat 32 ((2 ^ 32 - 1) - d.mask.toNat)

/-- sign_bit (R82). -/
def BitField.signBit (d : BitField) : Word := BitVec.ofNat 32 (2 ^ (d.fieldWidth - 1))

/-- comp, an integer: it needs 33 bits when the field is 32 bits wide (R82). -/
def BitField.comp (d : BitField) : Int := 2 ^ d.fieldWidth

/-- extract (R85). -/
def BitField.extract (d : BitField) (w : Word) : Word := (w &&& d.mask) >>> d.fromBit

/-- extract_signed: the exact integer (R88), with no width check (R89). -/
def BitField.extractSigned (d : BitField) (w : Word) : Int :=
  let e := d.extract w
  if e &&& d.signBit ≠ 0 then (e.toNat : Int) - d.comp else (e.toNat : Int)

/-- insert, which truncates silently (R86, R87). -/
def BitField.insert (d : BitField) (fieldValue w : Word) : Word :=
  (w &&& d.maskComp) ||| ((fieldValue <<< d.fromBit) &&& d.mask)

/-- The standalone sign_extend (R90), the literal formula on every input, so that its values outside the
intended domain are those of R91: bit `width - 1` of a Word is clear for every width above 32. -/
def signExtend (field : Word) (width : Int) : Except Failure Int :=
  if width ≤ 1 then .error (.invalidWidth width)
  else if field.getLsbD (width.toNat - 1) then .ok ((field.toNat : Int) - 2 ^ width.toNat)
  else .ok (field.toNat : Int)

/-! The units' ports. -/

/-- The outputs of the bit extractor (R27). -/
structure ExtractorOut where
  field : Word
  rangeInvalid : Bool
deriving DecidableEq, Repr

/-- Bit extractor (R27). While `range_invalid` is 1 the data output is a free value. -/
def bitExtractor (w : Word) (fromBit toBit : BitVec 5) (signedSel : Bool) : ExtractorOut :=
  match construct fromBit.toNat toBit.toNat with
  | .ok d => { field := if signedSel then word (d.extractSigned w) else d.extract w, rangeInvalid := false }
  | .error _ => { field := Config.extractorInvalid w fromBit toBit signedSel, rangeInvalid := true }

/-- The outputs of the bit inserter (R28). -/
structure InserterOut where
  wordOut : Word
  rangeInvalid : Bool
deriving DecidableEq, Repr

/-- Bit inserter (R28). While `range_invalid` is 1 the data output is a free value. -/
def bitInserter (fieldValue w : Word) (fromBit toBit : BitVec 5) : InserterOut :=
  match construct fromBit.toNat toBit.toNat with
  | .ok d => { wordOut := d.insert fieldValue w, rangeInvalid := false }
  | .error _ => { wordOut := Config.inserterInvalid fieldValue w fromBit toBit, rangeInvalid := true }

/-- The outputs of the sign-extension unit (R29). -/
structure SignExtenderOut where
  result : Word
  widthInvalid : Bool
deriving DecidableEq, Repr

/-- Sign-extension unit (R29): the result is delivered modulo 2^32 (R7, R91). While `width_invalid` is 1
the data output is a free value. -/
def signExtender (field : Word) (width : BitVec 6) : SignExtenderOut :=
  match signExtend field width.toNat with
  | .ok v => { result := word v, widthInvalid := false }
  | .error _ => { result := Config.extenderInvalid field width, widthInvalid := true }

end Sys2Proof.Machine
end

