-- ==== Sys2Proof/Machine/Params.lean ====
section
/-! DEFINITION. The parameters of spec/00_scope.md R4. `Params` holds all eight, for the functions of the
machine that take them as an argument; below it stand the values the spec gives them: `OPCODES` (R62),
`FLAGS` and `NEVER` (R16, R63), `REG_RESET` and `COND_RESET` (R26), and the one the spec leaves open,
`MEM_WORDS`. (The value of `LAYOUT` stands in Decode.lean, that of `ALU` in Machine/Flags.lean, and all eight
together are `Params.spec` in Machine/Step.lean.) -/

namespace Sys2Proof.Machine

/-- The opcodes (R62): the source's HALT, LOAD and STORE, and its "all other opcodes". -/
inductive Opcode where
  | halt | load | store | add | sub | mul | div
deriving DecidableEq, Repr

/-- What the commit of sub-step 7 distinguishes: LOAD, STORE, HALT and "all other opcodes" (R62, R122). -/
inductive CommitKind where
  | load | store | halt | other
deriving DecidableEq, Repr

/-- The decoded record (R66), for any `FLAGS` and `OPCODES`. The register indices are the unsigned integers that
extract reads, whatever the width of their fields. -/
structure Decoded (F : Type := Flags) (Op : Type := Opcode) where
  cond : F
  op : Op
  target : Word
  src1 : Word
  src2 : Word
  offset : Int
deriving DecidableEq, Repr

/-- `OPCODES` (R4, R62): the set of the opcodes, the class of each in sub-step 7, which of them a number in the op
field names, and the number of each. -/
structure OpcodeSet where
  Op : Type
  kind : Op → CommitKind
  ofNumber : Nat → Option Op
  number : Op → Nat
  agree : ∀ n op, ofNumber n = some op → number op = n

/-- `FLAGS` (R4, R16): the type of the condition-flag value and of a predicate, with what the predicate check does
with its values, the AND and the comparison (R117), and how a predicate stands in its field of an instruction word. -/
structure FlagSet where
  Flag : Type
  decEq : DecidableEq Flag
  both : Flag → Flag → Flag
  ofField : Word → Flag
  toField : Flag → Word

/-- The four flags of the default ALU in a type `FLAGS` (R16, R142). -/
structure FlagNames (F : Type := Flags) where
  m : F
  z : F
  p : F
  v : F
deriving DecidableEq, Repr

/-- `LAYOUT` (R4, R60): the seven fields of an instruction word. -/
structure Layout where
  reserved : BitField
  op : BitField
  cond : BitField
  target : BitField
  src1 : BitField
  src2 : BitField
  offset : BitField
deriving DecidableEq, Repr

/-- The ALU contract (R140): a total function of opcode, left and right, with no state. -/
abbrev Alu (F : Type := Flags) (Op : Type := Opcode) := Op → Word → Word → Word × F

/-- The parameters of the hardware (R4; notes/assumptions/20.md). -/
structure Params where
  layout : Layout
  opcodes : OpcodeSet
  flags : FlagSet
  never : flags.Flag
  alu : Alu flags.Flag opcodes.Op
  memWords : Nat
  condReset : flags.Flag
  regReset : Word

/-! The values of the spec. -/

/-- The opcode numbers (R62); 4 is not used. -/
def Opcode.number : Opcode → Nat
  | .halt => 0
  | .load => 1
  | .store => 2
  | .add => 3
  | .sub => 5
  | .mul => 6
  | .div => 7

/-- The opcode with a given number; 4 and 8 to 31 name none (R62, R68). -/
def Opcode.ofNumber (n : Nat) : Option Opcode :=
  match n with
  | 0 => some .halt
  | 1 => some .load
  | 2 => some .store
  | 3 => some .add
  | 5 => some .sub
  | 6 => some .mul
  | 7 => some .div
  | _ => none

/-- The class of an opcode in sub-step 7 (table of R62). -/
def Opcode.kind : Opcode → CommitKind
  | .halt => .halt
  | .load => .load
  | .store => .store
  | .add => .other
  | .sub => .other
  | .mul => .other
  | .div => .other

/-- `OPCODES` at the spec's value (R4, R62). -/
def specOpcodes : OpcodeSet :=
  { Op := Opcode
    kind := Opcode.kind
    ofNumber := Opcode.ofNumber
    number := Opcode.number
    agree := fun n op h => by unfold Opcode.ofNumber at h; split at h <;> cases h <;> rfl }

/-- M: the result is negative (R16). -/
def flagM : Flags := 1
/-- Z: the result is zero (R16). -/
def flagZ : Flags := 2
/-- P: the result is positive (R16). -/
def flagP : Flags := 4
/-- V: an arithmetic error (R16). -/
def flagV : Flags := 8
/-- The four flags at the spec's masks (R16). -/
def specFlagNames : FlagNames := { m := flagM, z := flagZ, p := flagP, v := flagV }
/-- `FLAGS` at the spec's value: 4-bit masks, ANDed bit by bit (R4, R16, R63). -/
def specFlags : FlagSet :=
  { Flag := Flags
    decEq := inferInstance
    both := fun a b => a &&& b
    ofField := fun w => w.setWidth 4
    toField := fun c => c.setWidth 32 }
/-- `NEVER`, the sentinel of the predicate check (R16, R117). -/
def never : Flags := 0
/-- `ALWAYS`, all four flags (R16, R63). -/
def always : Flags := 15

/-- `REG_RESET`, the reset value of registers 1 to 15 (R4, R26; notes/assumptions/4.md). -/
def regReset : Word := 0

/-- `COND_RESET`, the reset value of the condition flags (R4, R26; notes/assumptions/5.md). -/
def condReset : Flags := always

/-- `MEM_WORDS` of the memory the machine is connected to at reset. The spec leaves it OPEN (R4, D16).
DESIGN CHOICE (notes/assumptions/1.md): the whole address space of R40. -/
def memWordsReset : Nat := 2 ^ 32

/-- Index of the register that is fixed at zero (R4, R11). -/
def zeroReg : RegIdx := 0
/-- Index of the register that is the program counter (R4, R12). -/
def pcReg : RegIdx := 15
/-- `PC_STEP`: the amount the pc advances per instruction (R4, R15). -/
def pcStep : Word := 1

end Sys2Proof.Machine
end

