-- ==== Sys2Proof/Machine/Flags.lean ====
section
/-! DEFINITION. The ALU of the spec (spec/42_instructions.md R140 to R142), for flags of any type, and the
default ALU, which is it with the spec's flags. -/

namespace Sys2Proof.Machine

variable {F : Type}

/-- `flags_of(r)`: exactly one of M, Z and P (R142). -/
def flagsOf (fl : FlagNames F) (r : Word) : F :=
  if signed r < 0 then fl.m else if r = 0 then fl.z else fl.p

/-- A result together with its flags. -/
def withFlags (fl : FlagNames F) (r : Word) : Word × F := (r, flagsOf fl r)

/-- The address sum of LOAD and STORE, and the sum of ADD (R141). -/
def aluSum (fl : FlagNames F) (left right : Word) : Word × F := withFlags fl (left + right)

/-- The difference of SUB (R141). -/
def aluDifference (fl : FlagNames F) (left right : Word) : Word × F := withFlags fl (left - right)

/-- The low 32 bits of the product (R141, R148). -/
def aluProduct (fl : FlagNames F) (left right : Word) : Word × F := withFlags fl (left * right)

/-- The signed quotient rounded toward minus infinity; 0 and V for a zero divisor (R141, R149). -/
def aluQuotient (fl : FlagNames F) (left right : Word) : Word × F :=
  if right = 0 then (0, fl.v) else withFlags fl (word (Int.fdiv (signed left) (signed right)))

/-- The table of R141, its flags by their names. -/
def specAlu (fl : FlagNames F) : Alu F := fun op left right =>
  match op with
  | .add => aluSum fl left right
  | .sub => aluDifference fl left right
  | .mul => aluProduct fl left right
  | .div => aluQuotient fl left right
  | .load => aluSum fl left right
  | .store => aluSum fl left right
  | .halt => withFlags fl 0

/-- The default ALU (R141): the table with the spec's flags. -/
def defaultAlu : Alu := specAlu specFlagNames

end Sys2Proof.Machine
end

