-- ==== Sys2Proof/Syntax.lean ====
section
/-! DEFINITION. The instructions: one constructor per row of spec/opcode_table.json, each with the
record of fields that the decoder hands to the sequencer (spec/30_encoding.md R60, R66). -/

namespace Sys2Proof

/-- The decoded fields (R66). `cond` is the predicate mask (R63); the register indices are read unsigned
(R64); `offset` is the signed integer read with extract_signed (R65). -/
structure Fields where
  cond : Flags
  target : RegIdx
  src1 : RegIdx
  src2 : RegIdx
  offset : Int
deriving DecidableEq, Repr

/-- The seven instructions of the opcode table (R62, R143 to R149). -/
inductive Instr where
  | halt (f : Fields)
  | load (f : Fields)
  | store (f : Fields)
  | add (f : Fields)
  | sub (f : Fields)
  | mul (f : Fields)
  | div (f : Fields)
deriving DecidableEq, Repr

/-- The fields of an instruction. -/
def Instr.fields : Instr → Fields
  | .halt f => f
  | .load f => f
  | .store f => f
  | .add f => f
  | .sub f => f
  | .mul f => f
  | .div f => f

end Sys2Proof
end

