-- ==== Sys2Proof/WellFormed.lean ====
section
/-! DEFINITION. The instructions that the encoding can hold. The predicate mask and the three register
indices have the width of their fields in their type (all sixteen values of each are legal: R63, R64),
so the one check left is the range of the signed offset (spec/30_encoding.md R65, R67). -/

namespace Sys2Proof

/-- An offset that the 10-bit field can hold: -512 ≤ k ≤ 511 (R65). -/
abbrev Fields.wf (f : Fields) : Prop := -512 ≤ f.offset ∧ f.offset ≤ 511

/-- A well-formed instruction: its fields can be encoded (R67). -/
abbrev Instr.wf (i : Instr) : Prop := i.fields.wf

end Sys2Proof
end

