-- ==== Sys2Proof/Decode.lean ====
section
/-! DEFINITION. The decoder collaborator and the encoder (spec/30_encoding.md R60 to R71), both built
from the BitField codec over an instruction layout, which is a parameter (R4). An instruction is one Word (R61). -/

namespace Sys2Proof

open Sys2Proof.Machine

/-! The layout (`LAYOUT`, table of R60). -/

/-- Bit 31, reserved: the decoder does not read it, an encoder writes 0 (R69). -/
def reservedField : BitField := { fromBit := 31, toBit := 31, valid := by decide }
/-- op, bits 30:26 (R60, R62). -/
def opField : BitField := { fromBit := 26, toBit := 30, valid := by decide }
/-- cond, bits 25:22 (R60, R63). -/
def condField : BitField := { fromBit := 22, toBit := 25, valid := by decide }
/-- target, bits 21:18 (R60, R64). -/
def targetField : BitField := { fromBit := 18, toBit := 21, valid := by decide }
/-- src1, bits 17:14 (R60, R64). -/
def src1Field : BitField := { fromBit := 14, toBit := 17, valid := by decide }
/-- src2, bits 13:10 (R60, R64). -/
def src2Field : BitField := { fromBit := 10, toBit := 13, valid := by decide }
/-- offset, bits 9:0, read with extract_signed (R60, R65). -/
def offsetField : BitField := { fromBit := 0, toBit := 9, valid := by decide }

/-- `LAYOUT` at the spec's value (R4, R60). -/
def specLayout : Layout :=
  { reserved := reservedField
    op := opField
    cond := condField
    target := targetField
    src1 := src1Field
    src2 := src2Field
    offset := offsetField }

/-- The opcode of an instruction (R62). -/
def Instr.op : Instr → Opcode
  | .halt _ => .halt
  | .load _ => .load
  | .store _ => .store
  | .add _ => .add
  | .sub _ => .sub
  | .mul _ => .mul
  | .div _ => .div

/-- The instruction with a given opcode and fields. -/
def Instr.ofFields (op : Opcode) (f : Fields) : Instr :=
  match op with
  | .halt => .halt f
  | .load => .load f
  | .store => .store f
  | .add => .add f
  | .sub => .sub f
  | .mul => .mul f
  | .div => .div f

/-- The decoded record of an instruction (R66). -/
def Instr.record (i : Instr) : Decoded :=
  { cond := i.fields.cond
    op := i.op
    target := i.fields.target.setWidth 32
    src1 := i.fields.src1.setWidth 32
    src2 := i.fields.src2.setWidth 32
    offset := i.fields.offset }

/-- The instruction that a decoded record stands for; its register indices are 0 to 15 under the spec's layout
(R64). -/
def Instr.ofRecord (d : Decoded) : Instr :=
  Instr.ofFields d.op
    { cond := d.cond
      target := d.target.setWidth 4
      src1 := d.src1.setWidth 4
      src2 := d.src2.setWidth 4
      offset := d.offset }

/-- The record of a word whose op field names `op` (R66), under any parameters. -/
def recordWith (l : Layout) (fl : FlagSet) {Op : Type} (op : Op) (w : Word) : Decoded fl.Flag Op :=
  { cond := fl.ofField (l.cond.extract w)
    op := op
    target := l.target.extract w
    src1 := l.src1.extract w
    src2 := l.src2.extract w
    offset := l.offset.extractSigned w }

/-- `Decode(w)` (R66) under any `LAYOUT`, `OPCODES` and `FLAGS`: fails with `InvalidOpcode(w)` where the op field
names no opcode, whatever the other fields hold (R68). -/
def decodeWith (l : Layout) (ops : OpcodeSet) (fl : FlagSet) (w : Word) :
    Except Failure (Decoded fl.Flag ops.Op) :=
  match ops.ofNumber (l.op.extract w).toNat with
  | none => .error (.invalidOpcode w)
  | some op => .ok (recordWith l fl op w)

/-- `Decode(w)` (R66), as the instruction that the record stands for. -/
def decode (w : Word) : Except Failure Instr :=
  match decodeWith specLayout specOpcodes specFlags w with
  | .ok d => .ok (Instr.ofRecord d)
  | .error e => .error e

/-- `Encode` (R67) under any `LAYOUT`, `OPCODES` and `FLAGS`: the six values written into their fields of the Word 0
with the bit inserter. -/
def encodeWith (l : Layout) (ops : OpcodeSet) (fl : FlagSet) (d : Decoded fl.Flag ops.Op) : Word :=
  l.op.insert (BitVec.ofNat 32 (ops.number d.op))
    (l.cond.insert (fl.toField d.cond)
      (l.target.insert d.target
        (l.src1.insert d.src1
          (l.src2.insert d.src2
            (l.offset.insert (word d.offset) 0)))))

/-- `Encode` (R67): the word of a well-formed instruction. -/
def encode (i : Instr) : Word := encodeWith specLayout specOpcodes specFlags i.record

/-- The instruction the decoder reads from a row of spec/opcode_table.json: its `nbits` low bits are those
of `w`, the bits above are 0. -/
def decodeTableWord (nbits w : Nat) : Option Instr :=
  match decode (BitVec.ofNat 32 (w % 2 ^ nbits)) with
  | .ok i => some i
  | .error _ => none

end Sys2Proof
end

