-- ==== Sys2Proof/Machine/State.lean ====
section
/-! DEFINITION. The state of the machine (spec/10_state.md R10 to R26), the two kinds of stop, and the
state after reset. State is plain data. -/

namespace Sys2Proof.Machine

/-- The memory connection (spec/20_memory.md R40 to R43). `words` is `MEM_WORDS`: the addresses that exist
are those below it. `cells` lists, by strictly rising address, the words that the host or a STORE has
placed; any other word is unspecified (notes/assumptions/1.md, 2.md, 3.md). -/
structure Memory where
  words : Nat
  cells : List (Nat × Word)
deriving DecidableEq, Repr

/-- The event of one decoded instruction (R24, R116); `instrWord` is the raw word, bit 31 included, and `instr` the
decoded record. -/
structure Event (F : Type := Flags) (Op : Type := Opcode) where
  pcAddr : Word
  instrWord : Word
  instr : Decoded F Op
deriving DecidableEq, Repr

/-- Everything the spec gives the machine (R21, R23, R24). `F` is the parameter `FLAGS` and `Op` the set of
`OPCODES` (R4); `State` without arguments is the machine at the spec's values of both. -/
structure State (F : Type := Flags) (Op : Type := Opcode) where
  /-- x[1] to x[14], in this order (R10, R13). x[0] has no storage (R11). -/
  gpr : Vector Word 14
  /-- x[15], the program counter (R12, R15). -/
  pc : Word
  /-- The condition flags (R16, R17). -/
  cond : F
  /-- Set by the commit of a HALT, cleared by `run` and reset (R18). -/
  halted : Bool
  /-- 1 from the moment `run` is accepted until it ends (R19). -/
  running : Bool
  /-- The fault latch: none, or the record of the failure that ended a step (R20). -/
  fault : Option Failure
  /-- The memory behind the memory connection (R23). -/
  mem : Memory
  /-- The event trace, oldest first: an output, appended to and never read back (R24). -/
  trace : List (Event F Op)
  /-- The registered listeners in registration order (R24, R26, R173). -/
  listeners : List Nat
deriving DecidableEq, Repr

/-- Why a step stops the machine. -/
inductive Fault (F : Type := Flags) (Op : Type := Opcode) where
  /-- Raised by `raise` (Machine/Ops.lean) for a failure of fetch, decode, a LOAD's read or a STORE's write:
  "For a model a failure is a fault outcome of the step" (R160). `after` is the state the failing step
  leaves, exactly as R168 tables it, with the record latched. Safe: nothing the hardware does is lost. -/
  | failure (record : Failure) (after : State F Op)
  /-- Raised by `step` in a state that is not Running: "a model gives it no transition" (R130). Safe. -/
  | notRunning
deriving DecidableEq, Repr

/-- What the model or the machine turns away. -/
inductive Refusal where
  /-- An instruction without a meaning, by its mnemonic. Raised by no arm of `exec`. Safe. -/
  | notModelled (mnemonic : String)
  /-- Raised by `hostRun`: "A `run` request while `fault` is latched is refused until reset" (R130). Safe. -/
  | runWhileFaultLatched
  /-- Raised by the host's memory and listener actions while Running, and by its reads of the state while Running
  and not held: not allowed there (R195). Safe. -/
  | hostActionWhileRunning
  /-- Raised by the host's own memory access at an address the memory rejects (R42, R43, R195). Safe. -/
  | hostAccessRejected (addr : Word)
deriving DecidableEq, Repr

/-- The machine right after reset, at any `REG_RESET` and `COND_RESET` and connected to any memory (R4, R26, R190).
The sequencer is Idle. -/
def State.resetWith {F Op : Type} (regs : Word) (flags : F) (m : Memory) : State F Op :=
  { gpr := Vector.replicate 14 regs
    pc := regs
    cond := flags
    halted := false
    running := false
    fault := none
    mem := m
    trace := []
    listeners := [] }

/-- The machine right after reset (R26, R190), connected to a memory of `memWordsReset` words in which
nothing has been placed. -/
def State.reset : State := State.resetWith regReset condReset { words := memWordsReset, cells := [] }

end Sys2Proof.Machine
end

