-- ==== Sys2Proof/Machine/Ops.lean ====
section
/-! DEFINITION. The named operations over registers, memory and control state, and the one operation
that ends a step in a failure (spec/60_exceptions.md R160, R168). -/

namespace Sys2Proof.Machine

/-- What a step answers. -/
abbrev Result (F : Type := Flags) (Op : Type := Opcode) := Host.Outcome (State F Op) (Fault F Op) Refusal

variable {F Op : Type}

/-! Registers (R10 to R14). -/

/-- Where register `r` lies among the general registers, for r other than 0 and 15. -/
theorem gprIndex_lt {r : RegIdx} (h0 : ¬r = zeroReg) (h15 : ¬r = pcReg) : r.toNat - 1 < 14 := by
  have h0' : r.toNat ≠ 0 := fun h => h0 (BitVec.eq_of_toNat_eq (by simpa [zeroReg] using h))
  have h15' : r.toNat ≠ 15 := fun h => h15 (BitVec.eq_of_toNat_eq (by simpa [pcReg] using h))
  have := r.isLt
  omega

/-- `x[r]`: register 0 reads 0 (R11), register 15 is the pc (R12). -/
def State.readReg (s : State F Op) (r : RegIdx) : Word :=
  if h0 : r = zeroReg then 0
  else if h15 : r = pcReg then s.pc
  else s.gpr[r.toNat - 1]'(gprIndex_lt h0 h15)

/-- `x[r] <- v`: a write to register 0 is discarded (R11), a write to register 15 sets the pc (R12). -/
def State.writeReg (s : State F Op) (r : RegIdx) (v : Word) : State F Op :=
  if h0 : r = zeroReg then s
  else if h15 : r = pcReg then { s with pc := v }
  else { s with gpr := s.gpr.set (r.toNat - 1) v (gprIndex_lt h0 h15) }

/-- `pc <- pc + 1`, modulo 2^32 (R15). -/
def State.advancePc (s : State F Op) : State F Op := { s with pc := s.pc + pcStep }

/-- `cond <- f` (R17). -/
def State.setCond (s : State F Op) (f : F) : State F Op := { s with cond := f }

/-! Memory (R40 to R43). -/

/-- The word placed at address `a`, where one was. -/
def lookupCell : List (Nat × Word) → Nat → Option Word
  | [], _ => none
  | (b, v) :: rest, a => if a = b then some v else lookupCell rest a

/-- The list with `v` placed at address `a`, its addresses still rising. -/
def placeCell : List (Nat × Word) → Nat → Word → List (Nat × Word)
  | [], a, v => [(a, v)]
  | (b, w) :: rest, a, v =>
    if a < b then (a, v) :: (b, w) :: rest
    else if a = b then (a, v) :: rest
    else (b, w) :: placeCell rest a v

/-- What an unlisted address reads as: a free value (D16, U8; notes/assumptions/2.md). -/
def unlistedWord (a : Nat) : Word := Config.unloadedWord a

/-- `Mem[a]` for an address that exists. -/
def Memory.wordAt (m : Memory) (a : Nat) : Word := (lookupCell m.cells a).getD (unlistedWord a)

/-- Whether the memory holds a word at address `a`: `a < MEM_WORDS` (R42, R43). -/
def Memory.accepts (m : Memory) (a : Word) : Bool := a.toNat < m.words

/-- `MemRead(a, 1)` (R42). -/
def Memory.read (m : Memory) (a : Word) : Except Failure Word :=
  if m.accepts a then .ok (m.wordAt a.toNat) else .error (.memoryFault a)

/-- The memory with `v` placed at `a`. -/
def Memory.place (m : Memory) (a : Word) (v : Word) : Memory :=
  { m with cells := placeCell m.cells a.toNat v }

/-- `MemWrite(a, 1, v)` (R43): a failed write changes nothing. -/
def Memory.write (m : Memory) (a : Word) (v : Word) : Except Failure Memory :=
  if m.accepts a then .ok (m.place a v) else .error (.memoryFault a)

/-- The canonical form of a memory: its listed addresses rise strictly and all exist. -/
abbrev Memory.wf (m : Memory) : Prop :=
  m.cells.Pairwise (fun c d => c.1 < d.1) ∧ ∀ c ∈ m.cells, c.1 < m.words

/-- `Mem <- m`. -/
def State.setMem (s : State F Op) (m : Memory) : State F Op := { s with mem := m }

/-- Sub-step 1: the word at the pc (R113). -/
def State.fetch (s : State F Op) : Except Failure Word := s.mem.read s.pc

/-! Control state and trace. -/

/-- The state Running: `running = 1`, `halted = 0` (R19). -/
def State.isRunning (s : State F Op) : Bool := s.running && !s.halted

/-- `Notify(a, w, i)` with a the pc, w the raw word and i the decoded record (R116). -/
def State.notify (s : State F Op) (w : Word) (d : Decoded F Op) : State F Op :=
  { s with trace := s.trace ++ [{ pcAddr := s.pc, instrWord := w, instr := d }] }

/-- `halted <- 1` (R126), which ends the run: `running <- 0` (R111; notes/assumptions/8.md). -/
def State.commitHalt (s : State F Op) : State F Op := { s with halted := true, running := false }

/-- A failure ends the run: `running <- 0` and the record is latched (R111, R168). -/
def State.latch (s : State F Op) (f : Failure) : State F Op := { s with running := false, fault := some f }

/-- TAKING A FAILURE: the step ends where it stands, in the state the earlier sub-steps left, with the
failure latched (R160, R168). There is no handler and no return (R169, R170). -/
def raise (f : Failure) (s : State F Op) : Result F Op := .fault (.failure f (s.latch f))

end Sys2Proof.Machine
end

