-- ==== Sys2Proof/Machine/Operands.lean ====
section
/-! DEFINITION. The predicate check (spec/41_sequencer.md R117) and the one operand form (R119). -/

namespace Sys2Proof.Machine

variable {F Op : Type}

/-- Sub-step 3 under any `FLAGS` and `NEVER` (R117): whether the AND of the flags and the predicate is another value
than the never sentinel. -/
def FlagSet.passes (fl : FlagSet) (sentinel flags predicate : fl.Flag) : Bool :=
  !@decide (fl.both flags predicate = sentinel) (fl.decEq _ _)

/-- Sub-step 3: the instruction executes unless `cond & mask` is the never sentinel (R117). -/
def State.executes (s : State) (f : Fields) : Bool := specFlags.passes never s.cond f.cond

/-- `left = x[a]` (R119). -/
def State.left (s : State F Op) (a : RegIdx) : Word := s.readReg a

/-- `right = x[b] + word(k)` (R119). -/
def State.right (s : State F Op) (b : RegIdx) (k : Int) : Word := s.readReg b + word k

/-- Sub-step 4, `left = x[src1]`, read before the pc advances (R119). -/
def leftOperand (f : Fields) (s : State F Op) : Word := s.left f.src1

/-- Sub-step 4, `right = x[src2] + word(offset)`, read before the pc advances (R119). -/
def rightOperand (f : Fields) (s : State F Op) : Word := s.right f.src2 f.offset

/-- Sub-step 4, the selection of one register: an index above 15 names none (R119, R166). -/
def selectReg (index : Word) : Except Failure RegIdx :=
  if index.toNat ≤ 15 then .ok (index.setWidth 4) else .error (.invalidRegisterIndex index)

/-- Sub-step 4, the selection of the three registers of a record in the order of R119: target, src1, src2. -/
def Decoded.select (d : Decoded F Op) : Except Failure (RegIdx × RegIdx × RegIdx) :=
  match selectReg d.target, selectReg d.src1, selectReg d.src2 with
  | .ok t, .ok a, .ok b => .ok (t, a, b)
  | .error e, _, _ => .error e
  | .ok _, .error e, _ => .error e
  | .ok _, .ok _, .error e => .error e

end Sys2Proof.Machine
end

