-- ==== Sys2Proof/Machine/Sequencer.lean ====
section
/-! DEFINITION. Sub-steps 3 to 7 of a step (spec/41_sequencer.md R112, R117 to R126), once for every instruction and
for every value of the parameters (R4). -/

namespace Sys2Proof.Machine

variable {F Op : Type}

/-- Sub-step 7, chosen by the opcode alone (R122): LOAD (R124), STORE (R125), HALT (R126), and all other
opcodes (R123). `s` is the state after the pc advance and the flags replacement. -/
def commitAs (k : CommitKind) (target : RegIdx) (result : Word) (s : State F Op) : Result F Op :=
  match k with
  | .load =>
    match s.mem.read result with
    | .ok m => .next (s.writeReg target m)
    | .error e => raise e s
  | .store =>
    match s.mem.write result (s.readReg target) with
    | .ok m => .next (s.setMem m)
    | .error e => raise e s
  | .halt => .next s.commitHalt
  | .other => .next (s.writeReg target result)

/-- Sub-step 6, the result of the ALU on the operands of sub-step 4 (R119, R121). -/
def aluResult (alu : Alu F Op) (op : Op) (f : Fields) (s : State F Op) : Word :=
  (alu op (leftOperand f s) (rightOperand f s)).1

/-- Sub-step 6, the flags of the ALU on the operands of sub-step 4 (R119, R121). -/
def aluFlags (alu : Alu F Op) (op : Op) (f : Fields) (s : State F Op) : F :=
  (alu op (leftOperand f s) (rightOperand f s)).2

/-- Sub-steps 5 to 7 (R112): the pc advances (R120), the flags are replaced by those the ALU has given (R121), then
the commit takes place (R122). `r` is what the ALU gave on the operands read in `s`, before the pc advances. -/
def executed (k : CommitKind) (target : RegIdx) (r : Word × F) (s : State F Op) : Result F Op :=
  commitAs k target r.1 (s.advancePc.setCond r.2)

/-- Sub-steps 3 to 7 under a given ALU (R112). -/
def cycle (alu : Alu) (op : Opcode) (f : Fields) (s : State) : Result :=
  if s.executes f then executed op.kind f.target (alu op (leftOperand f s) (rightOperand f s)) s
  else .next s.advancePc

/-- Sub-steps 3 to 7 of a decoded record under any parameters (R4, R112). Where the predicate passes and a register
index of the record exceeds 15, its selection in sub-step 4 fails before any state is changed other than the
event (R166). -/
def execWith (p : Params) (d : Decoded p.flags.Flag p.opcodes.Op) (s : State p.flags.Flag p.opcodes.Op) :
    Result p.flags.Flag p.opcodes.Op :=
  if p.flags.passes p.never s.cond d.cond then
    match d.select with
    | .error e => raise e s
    | .ok (t, a, b) => executed (p.opcodes.kind d.op) t (p.alu d.op (s.left a) (s.right b d.offset)) s
  else .next s.advancePc

end Sys2Proof.Machine
end

