-- ==== Sys2Proof/Machine/Arithmetic.lean ====
section
/-! DEFINITION. The arithmetic instructions (spec/42_instructions.md section 4). -/

namespace Sys2Proof.Machine

/-- ADD (R146). -/
def execAdd (f : Fields) (s : State) : Result := cycle defaultAlu .add f s

/-- SUB (R147). -/
def execSub (f : Fields) (s : State) : Result := cycle defaultAlu .sub f s

/-- MUL (R148). -/
def execMul (f : Fields) (s : State) : Result := cycle defaultAlu .mul f s

/-- DIV (R149). -/
def execDiv (f : Fields) (s : State) : Result := cycle defaultAlu .div f s

end Sys2Proof.Machine
end

