-- ==== Sys2Proof/Machine/LoadStore.lean ====
section
/-! DEFINITION. LOAD and STORE (spec/42_instructions.md section 3). -/

namespace Sys2Proof.Machine

/-- LOAD (R144): the word at `x[src1] + x[src2] + offset` into the target; the flags describe the address. -/
def execLoad (f : Fields) (s : State) : Result := cycle defaultAlu .load f s

/-- STORE (R145): the target register's current value to `x[src1] + x[src2] + offset`; the flags describe
the address. -/
def execStore (f : Fields) (s : State) : Result := cycle defaultAlu .store f s

end Sys2Proof.Machine
end

