-- ==== Sys2Proof/Machine/System.lean ====
section
/-! DEFINITION. The system instruction (spec/42_instructions.md section 2). -/

namespace Sys2Proof.Machine

/-- HALT (R143): pc advance and flags as for any executed instruction, then `halted`; the target is not
written. -/
def execHalt (f : Fields) (s : State) : Result := cycle defaultAlu .halt f s

end Sys2Proof.Machine
end

