-- ==== Sys2Proof/Machine/Dispatch.lean ====
section
/-! DEFINITION. One arm per instruction of the opcode table. -/

namespace Sys2Proof.Machine

open Sys2Proof

def exec (i : Instr) (s : State) : Host.Outcome State Fault Refusal :=
  match i with
  | .halt f => Sys2Proof.Machine.execHalt f s
  | .load f => Sys2Proof.Machine.execLoad f s
  | .store f => Sys2Proof.Machine.execStore f s
  | .add f => Sys2Proof.Machine.execAdd f s
  | .sub f => Sys2Proof.Machine.execSub f s
  | .mul f => Sys2Proof.Machine.execMul f s
  | .div f => Sys2Proof.Machine.execDiv f s

end Sys2Proof.Machine
end

