-- ==== Sys2Proof/Machine/Step.lean ====
section
/-! DEFINITION. One step (spec/41_sequencer.md R112), under the spec's parameters and under any, and the host's
placing of one instruction. -/

namespace Sys2Proof.Machine

variable {I F Op : Type}

/-- The order of a step, for any decoder and any meaning of the decoded instruction: fetch (R113), decode (R114),
notify with its record (R116), then the instruction (R117 to R126). It is performed only while Running (R112,
R130). -/
def stepOf (dec : Word → Except Failure I) (record : I → Decoded F Op) (run : I → State F Op → Result F Op)
    (s : State F Op) : Result F Op :=
  if s.isRunning then
    match s.fetch with
    | .error e => raise e s
    | .ok w =>
      match dec w with
      | .error e => raise e s
      | .ok i => run i (s.notify w (record i))
  else .fault .notRunning

/-- The operation `step` (R112). -/
def step (s : State) : Host.Outcome State Fault Refusal :=
  stepOf decode Instr.record exec s

/-- The operation `step` under any parameters (R4, R112). -/
def stepWith (p : Params) (s : State p.flags.Flag p.opcodes.Op) : Result p.flags.Flag p.opcodes.Op :=
  stepOf (decodeWith p.layout p.opcodes p.flags) (fun d => d) (execWith p) s

/-- The parameters at the spec's values; `MEM_WORDS`, which the spec leaves open, at the model's (R4;
notes/assumptions/1.md, 9.md). Under them `stepWith` is `step`. -/
def Params.spec : Params :=
  { layout := specLayout
    opcodes := specOpcodes
    flags := specFlags
    never := Sys2Proof.Machine.never
    alu := defaultAlu
    memWords := memWordsReset
    condReset := Sys2Proof.Machine.condReset
    regReset := Sys2Proof.Machine.regReset }

/-- The machine right after its construction under any parameters: nothing placed in its memory (R4, R26). -/
def Params.reset (p : Params) : State p.flags.Flag p.opcodes.Op :=
  State.resetWith p.regReset p.condReset { words := p.memWords, cells := [] }

/-- `s` as the host leaves it for the next step to run the instruction whose low `nbits` bits are those of
`w`: the word loaded at the pc of a memory that holds that address, and a run begun there (R110, R193,
R195; notes/assumptions/8.md). -/
def State.withFetchWord (s : State) (nbits w : Nat) : State :=
  { s with
    mem := { words := max s.mem.words (s.pc.toNat + 1)
             cells := placeCell s.mem.cells s.pc.toNat (BitVec.ofNat 32 (w % 2 ^ nbits)) }
    halted := false
    running := true }

end Sys2Proof.Machine
end

