-- ==== Sys2Proof/Machine/HostInterface.lean ====
section
/-! DEFINITION. What the host may do to the machine and what it sees of it (spec/41_sequencer.md R110,
R111, R129, R130; spec/70_reset_and_hazards.md R190, R195; the ports of spec/10_state.md R30). Every
action takes place between two steps. -/

namespace Sys2Proof.Machine

variable {I F Op : Type}

/-! The host's actions (table of R195). -/

/-- The construction of the machine: connected for good to a memory, every other element at its reset
value (R190, R195). -/
def hostConnect (m : Memory) : State := State.resetWith regReset condReset m

/-- Reset (R190): every element of the sequencer's state at its reset value, the memory untouched. -/
def hostReset (s : State) : State := hostConnect s.mem

/-- Reset under any parameters (R4, R190). -/
def hostResetWith (p : Params) (s : State p.flags.Flag p.opcodes.Op) : State p.flags.Flag p.opcodes.Op :=
  State.resetWith p.regReset p.condReset s.mem

/-- `run(from_addr)` being accepted (R110): `halted`, pc and `running`, nothing else (R191). Ignored while
Running; refused while a fault is latched (R130). -/
def hostRun (fromAddr : Word) (s : State F Op) : Result F Op :=
  if s.running then .next s
  else if s.fault.isSome then .refused .runWhileFaultLatched
  else .next { s with halted := false, pc := fromAddr, running := true }

/-- The host ends the run between two steps: `running <- 0`, nothing else (R129). -/
def hostStop (s : State F Op) : State F Op := { s with running := false }

/-- The host loads one memory word through the memory's own put, while not Running (R195). -/
def hostLoadWord (a v : Word) (s : State F Op) : Result F Op :=
  if s.running then .refused .hostActionWhileRunning
  else
    match s.mem.write a v with
    | .ok m => .next (s.setMem m)
    | .error _ => .refused (.hostAccessRejected a)

/-- The host reads one memory word through the memory's own get, while not Running (R195). -/
def hostReadWord (a : Word) (s : State F Op) : Host.Outcome Word (Fault F Op) Refusal :=
  if s.running then .refused .hostActionWhileRunning
  else
    match s.mem.read a with
    | .ok v => .next v
    | .error _ => .refused (.hostAccessRejected a)

/-- The host registers a listener, while not Running (R173, R195): last in registration order. -/
def hostAddListener (l : Nat) (s : State F Op) : Result F Op :=
  if s.running then .refused .hostActionWhileRunning
  else .next { s with listeners := s.listeners ++ [l] }

/-- The host removes a listener, while not Running (R173, R195). DESIGN CHOICE (notes/assumptions/10.md): the first
entry of a listener registered twice goes, and removing one that is not registered is allowed and changes
nothing. -/
def hostRemoveListener (l : Nat) (s : State F Op) : Result F Op :=
  if s.running then .refused .hostActionWhileRunning
  else .next { s with listeners := s.listeners.erase l }

/-- What the host can read of the state (R195). -/
inductive HostRead where
  | reg (r : RegIdx)
  | pc
  | cond
  | halted
  | fault
deriving DecidableEq, Repr

/-- What a host read answers. -/
inductive HostValue (F : Type := Flags) where
  | word (w : Word)
  | flags (c : F)
  | bit (b : Bool)
  | latch (f : Option Failure)
deriving DecidableEq, Repr

/-- The value a host read names. -/
def State.hostValue (s : State F Op) (what : HostRead) : HostValue F :=
  match what with
  | .reg r => .word (s.readReg r)
  | .pc => .word s.pc
  | .cond => .flags s.cond
  | .halted => .bit s.halted
  | .fault => .latch s.fault

/-- The host reads a register, the pc, the flags, `halted` or the fault latch: while not Running, or between steps
while the run is held by `step_enable` = 0, and with no effect (R195). -/
def hostRead (stepEnable : Bool) (what : HostRead) (s : State F Op) : Host.Outcome (HostValue F) (Fault F Op) Refusal :=
  if s.running && stepEnable then .refused .hostActionWhileRunning else .next (s.hostValue what)

/-- A sequencer with a given step under the input `step_enable` (R30, R129): while it is 0 and the state is Running
no step begins and no state changes. -/
def gatedStepOf (stp : State F Op → Result F Op) (stepEnable : Bool) (s : State F Op) : Result F Op :=
  if stepEnable then stp s else .next s

/-- The sequencer under the input `step_enable` (R30, R129). -/
def gatedStep (stepEnable : Bool) (s : State) : Result := gatedStepOf step stepEnable s

/-- Everything that can happen to the machine between two of its states (R111, R195). -/
inductive HostAction where
  | reset
  | run (fromAddr : Word)
  | stop
  | loadWord (a v : Word)
  | addListener (l : Nat)
  | removeListener (l : Nat)
  | clock (stepEnable : Bool)
deriving DecidableEq, Repr

/-- The transition an action makes (R111), for a given reset and a given step. -/
def actOf (rst : State F Op → State F Op) (stp : State F Op → Result F Op) (a : HostAction) (s : State F Op) :
    Result F Op :=
  match a with
  | .reset => .next (rst s)
  | .run fromAddr => hostRun fromAddr s
  | .stop => .next (hostStop s)
  | .loadWord a v => hostLoadWord a v s
  | .addListener l => hostAddListener l s
  | .removeListener l => hostRemoveListener l s
  | .clock en => gatedStepOf stp en s

/-- The transition an action makes (R111). -/
def act (a : HostAction) (s : State) : Result := actOf hostReset step a s

/-- The transition an action makes under any parameters (R4, R111). -/
def actWith (p : Params) (a : HostAction) (s : State p.flags.Flag p.opcodes.Op) :
    Result p.flags.Flag p.opcodes.Op := actOf (hostResetWith p) (stepWith p) a s

/-- The loop of `run` with a given step (R110): at most `n` steps, fewer where the run ends before (R127); a failure
ends it (R160). After `n` steps the host has stopped asking for steps. -/
def runLoopOf (stp : State F Op → Result F Op) : Nat → State F Op → Result F Op
  | 0, s => .next s
  | n + 1, s =>
    if s.isRunning then
      match stp s with
      | .next s' => runLoopOf stp n s'
      | .fault r => .fault r
      | .refused r => .refused r
    else .next s

/-- The loop of `run` (R110). -/
def runLoop (n : Nat) (s : State) : Result := runLoopOf step n s

/-- The loop of `run` under any parameters (R4, R110). -/
def runLoopWith (p : Params) (n : Nat) (s : State p.flags.Flag p.opcodes.Op) :
    Result p.flags.Flag p.opcodes.Op := runLoopOf (stepWith p) n s

/-! What the host sees (R19, R30). -/

/-- The three states of the sequencer (R19). -/
inductive Phase where
  | idle | running | halted
deriving DecidableEq, Repr

/-- The state as a function of the two bits (R19; spec/90_conflicts.md C1). The pair running = 1,
halted = 1 is never seen between steps; it is read as halted. -/
def State.phase (s : State F Op) : Phase :=
  if s.halted then .halted else if s.running then .running else .idle

/-- `fault_code`: 0 means no failure (R30, R161). -/
def faultCode (r : Option Failure) : BitVec 4 :=
  match r with
  | none => 0
  | some f => f.code

/-- The host-side outputs (R30). `faultInfo` has no value while no failure is latched
(notes/assumptions/15.md). -/
structure HostOutputs where
  running : Bool
  halted : Bool
  faultCode : BitVec 4
  faultInfo : Option Word
deriving DecidableEq, Repr

/-- The host-side outputs in a state (R30): wires that always carry their value, while the host's reads of the state
(R195) go through `hostRead`. -/
def hostOutputs (s : State F Op) : HostOutputs :=
  { running := s.running
    halted := s.halted
    faultCode := Sys2Proof.Machine.faultCode s.fault
    faultInfo := s.fault.bind Failure.info }

/-- The observer-side outputs (R30), of the widths that the fields of the layout have. -/
structure EventPorts (wCond : Nat := 4) (wOp : Nat := 5) (wTarget : Nat := 4) (wSrc1 : Nat := 4) (wSrc2 : Nat := 4)
    (wOffset : Nat := 10) where
  pcAddr : Word
  instrWord : Word
  cond : BitVec wCond
  op : BitVec wOp
  target : BitVec wTarget
  src1 : BitVec wSrc1
  src2 : BitVec wSrc2
  offset : BitVec wOffset
deriving DecidableEq, Repr

/-- The observer-side outputs that carry an event under any parameters (R4, R30): the decoded fields as they stand
in the instruction word, each in the width of its field. -/
def eventPortsWith (p : Params) (e : Event p.flags.Flag p.opcodes.Op) :
    EventPorts p.layout.cond.fieldWidth p.layout.op.fieldWidth p.layout.target.fieldWidth
      p.layout.src1.fieldWidth p.layout.src2.fieldWidth p.layout.offset.fieldWidth :=
  { pcAddr := e.pcAddr
    instrWord := e.instrWord
    cond := (p.flags.toField e.instr.cond).setWidth _
    op := BitVec.ofNat _ (p.opcodes.number e.instr.op)
    target := e.instr.target.setWidth _
    src1 := e.instr.src1.setWidth _
    src2 := e.instr.src2.setWidth _
    offset := BitVec.ofInt _ e.instr.offset }

/-- The observer-side outputs that carry an event (R30). -/
def eventPorts (e : Event) : EventPorts := eventPortsWith Params.spec e

/-- Who receives an event: each registered listener the same event, in registration order (R116, R173). -/
def deliveries (s : State F Op) (e : Event F Op) : List (Nat × Event F Op) := s.listeners.map fun l => (l, e)

/-- One access on the memory side of the sequencer (R30, R44). -/
inductive MemAccess where
  | read (addr : Word)
  | write (addr value : Word)
deriving DecidableEq, Repr

/-- The data access of sub-step 7 of an executed instruction (R44): none for what is neither LOAD nor STORE. The
stored value is read after the pc has advanced (R125). -/
def executedAccess (k : CommitKind) (target : RegIdx) (result : Word) (s : State F Op) : List MemAccess :=
  match k with
  | .load => [.read result]
  | .store => [.write result (s.advancePc.readReg target)]
  | .halt | .other => []

/-- The data access of an instruction (R44): none where it is skipped. -/
def dataAccess (i : Instr) (s : State) : List MemAccess :=
  if s.executes i.fields then
    executedAccess i.op.kind i.fields.target (aluResult defaultAlu i.op i.fields s) s
  else []

/-- The data access of a decoded record under any parameters (R4, R44): none where it is skipped, nor where the
selection of a register fails (R166). -/
def dataAccessWith (p : Params) (d : Decoded p.flags.Flag p.opcodes.Op)
    (s : State p.flags.Flag p.opcodes.Op) : List MemAccess :=
  if p.flags.passes p.never s.cond d.cond then
    match d.select with
    | .error _ => []
    | .ok (t, a, b) => executedAccess (p.opcodes.kind d.op) t (p.alu d.op (s.left a) (s.right b d.offset)).1 s
  else []

/-- The accesses that the step from a state makes, in their order, for any decoder and any data access (R44, R50):
the fetch, then the data access of the decoded instruction. -/
def stepAccessesOf (dec : Word → Except Failure I) (access : I → State F Op → List MemAccess) (s : State F Op) :
    List MemAccess :=
  if s.isRunning then
    match s.fetch with
    | .error _ => [.read s.pc]
    | .ok w =>
      match dec w with
      | .error _ => [.read s.pc]
      | .ok i => .read s.pc :: access i s
  else []

/-- The accesses that the step from a state makes, in their order (R44, R50). -/
def stepAccesses (s : State) : List MemAccess := stepAccessesOf decode dataAccess s

/-- The accesses that the step from a state makes under any parameters (R4, R44). -/
def stepAccessesWith (p : Params) (s : State p.flags.Flag p.opcodes.Op) : List MemAccess :=
  stepAccessesOf (decodeWith p.layout p.opcodes p.flags) (dataAccessWith p) s

/-- The effect of one access on the memory (R42, R43): a read changes nothing. -/
def Memory.afterAccess (m : Memory) (a : MemAccess) : Memory :=
  match a with
  | .read _ => m
  | .write addr v => if m.accepts addr then m.place addr v else m

end Sys2Proof.Machine
end

