-- ==== Sys2Proof/Safety.lean ====
section
/-! DEFINITION. The terms in which statements speak of runs: the invariant of the machine, a completed
run, the states that can be reached, and what a stopped step leaves. -/

namespace Sys2Proof.Machine

/-- The flags values that the machine can hold: `COND_RESET`, or exactly one flag (R26, R142). -/
abbrev legalCond (c : Flags) : Prop := c = always ∨ c = flagM ∨ c = flagZ ∨ c = flagP ∨ c = flagV

/-- The invariant of the machine. The memory keeps its canonical form; running and halted are never both 1
between steps (R19); a latched fault leaves the sequencer Idle (R111, R168); the latch holds an invalid
opcode or a memory fault (R161, R166); the flags are a value that reset or the ALU gives (R26, R142). -/
structure State.Inv (s : State) : Prop where
  memWf : s.mem.wf
  notBoth : ¬(s.running = true ∧ s.halted = true)
  latchedIdle : s.fault ≠ none → s.running = false ∧ s.halted = false
  latchKind : ∀ f, s.fault = some f → f.code = 3 ∨ f.code = 4
  condLegal : legalCond s.cond

/-- A completed run: it ended by a HALT, and by nothing else (R127). -/
def State.completed (s : State) : Prop := s.halted = true ∧ s.running = false ∧ s.fault = none

/-- The states the machine can be in: constructed with any memory in its canonical form, and whatever the host's
actions and the steps lead to, the state of a failed step among them. -/
inductive Reachable : State → Prop where
  | connected (m : Memory) (hm : m.wf) : Reachable (hostConnect m)
  | act {s t : State} (h : Reachable s) (a : HostAction) (ha : act a s = .next t) : Reachable t
  | failed {s t : State} (h : Reachable s) (r : Failure) (hf : step s = .fault (.failure r t)) : Reachable t

/-- The state that a step leaves behind, whether it completes or fails. -/
def leaves (r : Result) (t : State) : Prop := r = .next t ∨ ∃ f, r = .fault (.failure f t)

/-- The outcome with its state, of a completed or of a failed step, changed by `g`. -/
def mapState (g : State → State) : Result → Result
  | .next t => .next (g t)
  | .fault (.failure f t) => .fault (.failure f (g t))
  | .fault .notRunning => .fault .notRunning
  | .refused r => .refused r

/-- The flags of a result as R142 words them: M by bit 31, Z for zero, P otherwise. -/
def ruleFlags (r : Word) : Flags := if r.getLsbD 31 then 1 else if r = 0 then 2 else 4

/-- What an executed instruction that writes `v` to its target leaves in the target, the pc and the flags:
register 0 discards the write (R11), register 15 is the pc (R12), any other target leaves the pc advanced. -/
def wrote (s t : State) (target : RegIdx) (v : Word) (c : Flags) : Prop :=
  t.readReg target = (if target = 0 then 0 else v) ∧
    t.pc = (if target = 15 then v else s.pc + 1) ∧ t.cond = c

/-- Every register but `target` and the pc reads as before. -/
def otherRegsSame (s t : State) (target : RegIdx) : Prop :=
  ∀ r : RegIdx, r ≠ target → r ≠ 15 → t.readReg r = s.readReg r

/-- The control bits, the fault latch, the event trace and the listeners are as before. -/
def controlSame (s t : State) : Prop :=
  t.halted = s.halted ∧ t.running = s.running ∧ t.fault = s.fault ∧ t.trace = s.trace ∧
    t.listeners = s.listeners

/-- Every word of memory reads as before. -/
def memSame (s t : State) : Prop := ∀ a : Word, t.mem.read a = s.mem.read a

end Sys2Proof.Machine
end

