-- ==== Sys2Proof/Certificates/Slice0/Obligations.lean ====
section
/-! DEFINITION. The statements for the provers. Bits, flags and register numbers are written as numbers, as
the spec writes them: registers 0 and 15, flags M = 1, Z = 2, P = 4, V = 8, mask 0 = `NEVER`. A hypothesis
`s.cond &&& f.cond ≠ 0` says that the predicate passes (R117). The arithmetic results, the layout and the
reset values are the spec's own decisions (spec/92_eei_decisions.md D8 to D16, logged in
notes/assumptions/1.md to 9.md): a statement that rests on one says so and cites no rule for it. -/

open Sys2Proof Sys2Proof.Machine

/-! ## The codec (spec/40_bitfield_codec.md) -/

/-- construct yields a descriptor exactly for 0 ≤ from_bit ≤ to_bit ≤ 31 (on integers: the spec's decision
D4) and fails with `InvalidRange` otherwise (section 1, R81). -/
def Obligations.ConstructAcceptsLegalRangesOnly : Prop :=
  ∀ f t : Int,
    ((0 ≤ f ∧ f ≤ t ∧ t ≤ 31) →
      ∃ d, construct f t = .ok d ∧ (d.fromBit : Int) = f ∧ (d.toBit : Int) = t) ∧
    (¬(0 ≤ f ∧ f ≤ t ∧ t ≤ 31) → construct f t = .error (.invalidRange f t))

/-- The derived constants are those of R82, at every width from 1 to 32 (exact integers: decision D3). -/
def Obligations.DerivedConstantsSelectTheField : Prop :=
  ∀ d : BitField,
    d.fieldWidth = d.toBit - d.fromBit + 1 ∧ 1 ≤ d.fieldWidth ∧ d.fieldWidth ≤ 32 ∧
    (∀ k, d.mask.getLsbD k = decide (d.fromBit ≤ k ∧ k ≤ d.toBit)) ∧
    (∀ k, d.maskComp.getLsbD k = decide (k < 32 ∧ ¬(d.fromBit ≤ k ∧ k ≤ d.toBit))) ∧
    (∀ k, d.signBit.getLsbD k = decide (k = d.fieldWidth - 1)) ∧
    d.comp = 2 ^ d.fieldWidth ∧ d.comp = 2 * (d.signBit.toNat : Int)

/-- R85, whole: extract is `(word & mask) >> f`, that is `word[t:f]`; its result lies in
[0, 2^field_width - 1]; bits outside the field do not influence it; the corner descriptors. -/
def Obligations.ExtractReadsTheField : Prop :=
  ∀ (d : BitField) (w : Word),
    d.extract w = (w &&& d.mask) >>> d.fromBit ∧
    (d.extract w).toNat = w.toNat / 2 ^ d.fromBit % 2 ^ d.fieldWidth ∧
    (d.extract w).toNat ≤ 2 ^ d.fieldWidth - 1 ∧
    (∀ w' : Word, (∀ k, d.fromBit ≤ k → k ≤ d.toBit → w'.getLsbD k = w.getLsbD k) →
      d.extract w' = d.extract w) ∧
    (d.fromBit = 0 → d.toBit = 31 → d.extract w = w) ∧
    (d.fromBit = d.toBit → d.extract w = if w.getLsbD d.fromBit then 1 else 0)

/-- R86, whole: insert's formula; bit by bit, the field takes the low bits of the value and every other bit
stays; the field's previous content does not influence the result; the corner cases. -/
def Obligations.InsertWritesTheFieldOnly : Prop :=
  ∀ (d : BitField) (v w : Word),
    d.insert v w = (w &&& d.maskComp) ||| ((v <<< d.fromBit) &&& d.mask) ∧
    (∀ k, d.fromBit ≤ k → k ≤ d.toBit → (d.insert v w).getLsbD k = v.getLsbD (k - d.fromBit)) ∧
    (∀ k, ¬(d.fromBit ≤ k ∧ k ≤ d.toBit) → (d.insert v w).getLsbD k = w.getLsbD k) ∧
    (∀ w' : Word, (∀ k, ¬(d.fromBit ≤ k ∧ k ≤ d.toBit) → w'.getLsbD k = w.getLsbD k) →
      d.insert v w' = d.insert v w) ∧
    (d.fromBit = 0 → d.toBit = 31 → d.insert v w = v) ∧
    d.insert 0 w = w &&& d.maskComp

/-- insert truncates: a value wider than the field inserts its low field_width bits (section
3, R87; the Word carriage of the value is the spec's decision D7). -/
def Obligations.InsertTruncatesSilently : Prop :=
  ∀ (d : BitField) (v w : Word), d.insert v w = d.insert (BitVec.ofNat 32 (v.toNat % 2 ^ d.fieldWidth)) w

/-- The round trip: what extract reads after insert is the value modulo 2^field_width, so the value itself
where it fits the field; and a field read back changes nothing (section 5, R92, R95). -/
def Obligations.InsertThenExtractReturnsTheValue : Prop :=
  ∀ (d : BitField) (v w : Word),
    (d.extract (d.insert v w)).toNat = v.toNat % 2 ^ d.fieldWidth ∧
    (v.toNat < 2 ^ d.fieldWidth → d.extract (d.insert v w) = v) ∧
    d.insert (d.extract w) w = w

/-- insert is local and idempotent, a later insert overrides an earlier one, and inserts into fields that do
not overlap commute (section 5, R93). -/
def Obligations.InsertIsLocalAndIdempotent : Prop :=
  ∀ (d : BitField) (v v' w : Word),
    d.insert v w &&& d.maskComp = w &&& d.maskComp ∧
    d.insert v (d.insert v w) = d.insert v w ∧
    d.insert v (d.insert v' w) = d.insert v w ∧
    (∀ e : BitField, (d.toBit < e.fromBit ∨ e.toBit < d.fromBit) →
      d.insert v (e.insert v' w) = e.insert v' (d.insert v w))

/-- The signed round trip, for every integer that the field can hold (section 5, R94). -/
def Obligations.SignedValuesSurviveInsertAndExtract : Prop :=
  ∀ (d : BitField) (n : Int) (w : Word),
    -(2 ^ (d.fieldWidth - 1) : Int) ≤ n → n < 2 ^ (d.fieldWidth - 1) →
    d.extractSigned (d.insert (word n) w) = n

/-- extract_signed reads the field in two's complement: its value is in the field's signed range and congruent
to the field; as a Word its bits from field_width on are copies of the field's top bit; at width 1 it is 0 or
-1 and at width 32 it is `signed` (section 2, R88, R89; the Word form is the spec's decision D2). The standalone
sign_extend agrees with it wherever both are defined, and fails on a one-bit field (section 4, R96). -/
def Obligations.ExtractSignedIsTwosComplement : Prop :=
  ∀ (d : BitField) (w : Word),
    -(2 ^ (d.fieldWidth - 1) : Int) ≤ d.extractSigned w ∧ d.extractSigned w < 2 ^ (d.fieldWidth - 1) ∧
    d.extractSigned w % 2 ^ d.fieldWidth = ((d.extract w).toNat : Int) ∧
    (∀ k, k < 32 → (word (d.extractSigned w)).getLsbD k =
      w.getLsbD (if k < d.fieldWidth then d.fromBit + k else d.toBit)) ∧
    (d.fromBit = d.toBit → d.extractSigned w = if w.getLsbD d.fromBit then -1 else 0) ∧
    (d.fromBit = 0 → d.toBit = 31 → d.extractSigned w = signed w) ∧
    (2 ≤ d.fieldWidth → signExtend (d.extract w) d.fieldWidth = .ok (d.extractSigned w)) ∧
    (d.fieldWidth = 1 → signExtend (d.extract w) d.fieldWidth = .error (.invalidWidth 1))

/-- R90, whole: the failure for widths of 1 or less and no other; the formula; on the intended inputs
`sext_width`, in its range; delivered in hardware as a Word; the source's two examples. -/
def Obligations.SignExtendMeetsItsContract : Prop :=
  (∀ (field : Word) (width : Int), width ≤ 1 → signExtend field width = .error (.invalidWidth width)) ∧
  (∀ (field : Word) (width : Int), 1 < width →
    signExtend field width =
      .ok (if field.toNat.testBit (width.toNat - 1) then (field.toNat : Int) - 2 ^ width.toNat
        else (field.toNat : Int))) ∧
  (∀ (field : Word) (n : Nat), 2 ≤ n → n ≤ 32 → field.toNat < 2 ^ n →
    signExtend field n = .ok (field.setWidth n).toInt ∧
      -(2 ^ (n - 1) : Int) ≤ (field.setWidth n).toInt ∧ (field.setWidth n).toInt < 2 ^ (n - 1)) ∧
  (∀ (field : Word) (width : BitVec 6) (v : Int), signExtend field width.toNat = .ok v →
    (signExtender field width).result = word v) ∧
  signExtend 0b111 3 = .ok (-1) ∧ signExtend 0b0111 4 = .ok 7

/-- Outside the intended domain sign_extend is the literal formula: the spec's own choice, decisions D5 and D6
(R91; notes/assumptions/16.md). -/
def Obligations.SignExtendOutsideItsDomain : Prop :=
  ∀ (field : Word) (n : Nat), 2 ≤ n →
    (n ≤ 32 → 2 ^ n ≤ field.toNat → field.getLsbD (n - 1) = true →
      signExtend field n = .ok ((field.toNat : Int) - 2 ^ n)) ∧
    (n ≤ 32 → 2 ^ n ≤ field.toNat → field.getLsbD (n - 1) = false →
      signExtend field n = .ok (field.toNat : Int)) ∧
    (33 ≤ n → signExtend field n = .ok (field.toNat : Int))

/-- The ports of the three units carry the functions, and their invalid outputs are 1 exactly where R27 to R29
say; the ports are the spec's own reading, decision D1. -/
def Obligations.CodecPortsCarryTheFunctions : Prop :=
  (∀ (w v : Word) (f t : BitVec 5) (sel : Bool),
    ((bitExtractor w f t sel).rangeInvalid = true ↔ t < f) ∧
    ((bitInserter v w f t).rangeInvalid = true ↔ t < f) ∧
    (∀ d, construct f.toNat t.toNat = .ok d →
      (bitExtractor w f t false).field = d.extract w ∧
      (bitExtractor w f t true).field = word (d.extractSigned w) ∧
      (bitInserter v w f t).wordOut = d.insert v w)) ∧
  (∀ (field : Word) (width : BitVec 6),
    ((signExtender field width).widthInvalid = true ↔ width ≤ 1) ∧
    (∀ v, signExtend field width.toNat = .ok v → (signExtender field width).result = word v))

/-! ## Encoding (spec/30_encoding.md; layout and numbers are decisions D8, D9) -/

/-- Every well-formed instruction, with every operand at every value, survives encoding (R67). -/
def Obligations.DecodeEncodeRoundTrip : Prop :=
  ∀ i : Instr, i.wf → decode (encode i) = .ok i

/-- Every word that decodes is, but for its reserved bit, the encoding of what it decodes to, which is well
formed: each word has one meaning (R60, R66, R67, R69). -/
def Obligations.EncodeDecodeRoundTrip : Prop :=
  ∀ (w : Word) (i : Instr), decode w = .ok i → i.wf ∧ encode i = w &&& 0x7FFFFFFF

/-- The decoder refuses exactly the words whose op field holds 4 or 8 to 31, whatever their other fields, and
names the word (section 4; where the failure is raised is the spec's decision D18). -/
def Obligations.UndefinedOpcodesAreRefused : Prop :=
  ∀ w : Word,
    ((w.extractLsb' 26 5).toNat ∈ [0, 1, 2, 3, 5, 6, 7] → ∃ i, decode w = .ok i) ∧
    ((w.extractLsb' 26 5).toNat = 4 ∨ 8 ≤ (w.extractLsb' 26 5).toNat → decode w = .error (.invalidOpcode w))

/-- Each decoded field is read from its own bits, the offset in two's complement (sections 1 to 3); the
observer ports (spec/10_state.md section 7) carry the same bits. -/
def Obligations.FieldsAreReadFromTheirBits : Prop :=
  ∀ (w a : Word) (i : Instr), decode w = .ok i →
    i.op.number = (w.extractLsb' 26 5).toNat ∧
    i.fields.cond = w.extractLsb' 22 4 ∧ i.fields.target = w.extractLsb' 18 4 ∧
    i.fields.src1 = w.extractLsb' 14 4 ∧ i.fields.src2 = w.extractLsb' 10 4 ∧
    i.fields.offset = (w.extractLsb' 0 10).toInt ∧
    eventPorts { pcAddr := a, instrWord := w, instr := i.record } =
      { pcAddr := a, instrWord := w, cond := w.extractLsb' 22 4, op := w.extractLsb' 26 5,
        target := w.extractLsb' 18 4, src1 := w.extractLsb' 14 4, src2 := w.extractLsb' 10 4,
        offset := w.extractLsb' 0 10 }

/-- Two words that differ only in bit 31 decode to the same instruction (section 4; decision D19). -/
def Obligations.ReservedBitDoesNotMatter : Prop :=
  ∀ (w w' : Word) (i : Instr), (∀ k, k < 31 → w'.getLsbD k = w.getLsbD k) →
    decode w = .ok i → decode w' = .ok i

/-- Eight words written out from the encoding table, at least one for each instruction, decode to what they stand
for and are what the encoder gives for it; one word of an undefined opcode is refused (spec/95_test_vectors.md
section 3; layout and numbers: decisions D8, D9; the decoder's refusal: D18). -/
def Obligations.WrittenOutWordsDecode : Prop :=
  decode 0x0C848C0F = .ok (.add ⟨2, 1, 2, 3, 15⟩) ∧ encode (.add ⟨2, 1, 2, 3, 15⟩) = 0x0C848C0F ∧
  decode 0x14FB7200 = .ok (.sub ⟨3, 14, 13, 12, -512⟩) ∧ encode (.sub ⟨3, 14, 13, 12, -512⟩) = 0x14FB7200 ∧
  decode 0x07C84FFF = .ok (.load ⟨15, 2, 1, 3, -1⟩) ∧ encode (.load ⟨15, 2, 1, 3, -1⟩) = 0x07C84FFF ∧
  decode 0x0BFC0015 = .ok (.store ⟨15, 15, 0, 0, 21⟩) ∧ encode (.store ⟨15, 15, 0, 0, 21⟩) = 0x0BFC0015 ∧
  decode 0x1BCC4800 = .ok (.mul ⟨15, 3, 1, 2, 0⟩) ∧ encode (.mul ⟨15, 3, 1, 2, 0⟩) = 0x1BCC4800 ∧
  decode 0x1C0001FF = .ok (.div ⟨0, 0, 0, 0, 511⟩) ∧ encode (.div ⟨0, 0, 0, 0, 511⟩) = 0x1C0001FF ∧
  decode 0x00000000 = .ok (.halt ⟨0, 0, 0, 0, 0⟩) ∧ encode (.halt ⟨0, 0, 0, 0, 0⟩) = 0x00000000 ∧
  decode 0x03C00000 = .ok (.halt ⟨15, 0, 0, 0, 0⟩) ∧ encode (.halt ⟨15, 0, 0, 0, 0⟩) = 0x03C00000 ∧
  decode 0x10000000 = .error (.invalidOpcode 0x10000000)

/-! ## Registers (spec/10_state.md section 1) -/

/-- R11, whole: register 0 always reads 0 and a write to it has no effect; an instruction whose target is
register 0 has every other effect of its rule, a LOAD's read among them. For every ALU. -/
def Obligations.RegisterZeroIsFixed : Prop :=
  (∀ s : State, s.readReg 0 = 0) ∧
  (∀ (s : State) (v : Word), s.writeReg 0 v = s) ∧
  (∀ (alu : Alu) (op : Opcode) (f : Fields) (s : State), f.target = 0 → s.cond &&& f.cond ≠ 0 →
    let r := alu op (s.readReg f.src1) (s.readReg f.src2 + word f.offset)
    let u : State := { s with pc := s.pc + 1, cond := r.2 }
    (op ∈ [Opcode.add, .sub, .mul, .div] → cycle alu op f s = .next u) ∧
    (op = .halt → ∃ t, cycle alu op f s = .next t ∧ t.halted = true ∧ t.pc = s.pc + 1 ∧ t.cond = r.2) ∧
    (∀ m, op = .load → s.mem.read r.1 = .ok m → cycle alu op f s = .next u) ∧
    (∀ e, op = .load → s.mem.read r.1 = .error e →
      ∃ v, cycle alu op f s = .fault (.failure e v) ∧ v.pc = s.pc + 1 ∧ v.cond = r.2) ∧
    (∀ m, op = .store → s.mem.write r.1 0 = .ok m → cycle alu op f s = .next { u with mem := m }) ∧
    (∀ e, op = .store → s.mem.write r.1 0 = .error e →
      ∃ v, cycle alu op f s = .fault (.failure e v) ∧ v.pc = s.pc + 1 ∧ v.cond = r.2))

/-- R12, whole: register 15 and the pc are one storage element; what an instruction sees in it depends on
the sub-step that reads it. -/
def Obligations.RegisterFifteenIsThePc : Prop :=
  (∀ s : State, s.readReg 15 = s.pc) ∧
  (∀ (s : State) (v : Word), s.writeReg 15 v = { s with pc := v }) ∧
  (∀ (s : State) (f : Fields), f.src1 = 15 → leftOperand f s = s.pc) ∧
  (∀ (s : State) (f : Fields), f.src2 = 15 → rightOperand f s = s.pc + word f.offset) ∧
  (∀ (alu : Alu) (f : Fields) (s : State) (m : Memory), f.target = 15 → s.cond &&& f.cond ≠ 0 →
    s.mem.write (aluResult alu .store f s) (s.pc + 1) = .ok m →
    ∃ t, cycle alu .store f s = .next t ∧ t.mem = m ∧ t.mem.read (aluResult alu .store f s) = .ok (s.pc + 1))

/-- A register holds what was last written to it, and a write reaches no other register, no flag, no memory
word and no control bit (section 1, R10 to R14). -/
def Obligations.RegistersHoldWhatWasWritten : Prop :=
  ∀ (s : State) (r q : RegIdx) (v : Word),
    (s.writeReg r v).readReg q = (if q = 0 then 0 else if q = r then v else s.readReg q) ∧
    (s.writeReg r v).cond = s.cond ∧ (s.writeReg r v).mem = s.mem ∧ controlSame s (s.writeReg r v)

/-! ## The sequencer (spec/41_sequencer.md) -/

/-- While Running, a step whose word is fetched and decoded is that instruction, run in the state in which
its event (pc, raw word, instruction) has been appended to the trace (section 2, R112 to R116; the bit
`running` and the trace as a list are decisions D15 and D21). -/
def Obligations.StepRunsTheDecodedInstruction : Prop :=
  ∀ (s : State) (w : Word) (i : Instr), s.running = true → s.halted = false →
    s.mem.read s.pc = .ok w → decode w = .ok i →
    step s = exec i { s with trace := s.trace ++ [{ pcAddr := s.pc, instrWord := w, instr := i.record }] }

/-- R118, whole: when the predicate fails the pc advances by 1 and nothing else changes, for every opcode and
every ALU; the event was already emitted. -/
def Obligations.SkippedInstructionsOnlyAdvanceThePc : Prop :=
  (∀ (alu : Alu) (op : Opcode) (f : Fields) (s : State), s.cond &&& f.cond = 0 →
    cycle alu op f s = .next { s with pc := s.pc + 1 }) ∧
  (∀ (i : Instr) (s : State), s.cond &&& i.fields.cond = 0 → exec i s = .next { s with pc := s.pc + 1 }) ∧
  (∀ (s : State) (w : Word) (i : Instr), s.running = true → s.halted = false →
    s.mem.read s.pc = .ok w → decode w = .ok i → s.cond &&& i.fields.cond = 0 →
    step s = .next { s with
      pc := s.pc + 1
      trace := s.trace ++ [{ pcAddr := s.pc, instrWord := w, instr := i.record }] })

/-- Which masks pass (R63, R117): `NEVER` never; `ALWAYS` in every state whose flags are a value the machine
can hold; after reset, when all four flags are set, every mask but 0; with one flag set, the masks that hold
it. The check is the sequencer's: an instruction that does not pass is skipped, and one that passes replaces the
flags. The flag numbers are decision D10. -/
def Obligations.MasksSelectByFlag : Prop :=
  ∀ (s : State) (f : Fields),
    (f.cond = 0 → s.executes f = false) ∧
    (f.cond = 15 → legalCond s.cond → s.executes f = true) ∧
    (s.cond = 15 → (s.executes f = true ↔ f.cond ≠ 0)) ∧
    (s.cond = 1 → s.executes f = f.cond.getLsbD 0) ∧ (s.cond = 2 → s.executes f = f.cond.getLsbD 1) ∧
    (s.cond = 4 → s.executes f = f.cond.getLsbD 2) ∧ (s.cond = 8 → s.executes f = f.cond.getLsbD 3) ∧
    (s.executes f = true ↔ s.cond &&& f.cond ≠ 0) ∧
    (∀ i : Instr, s.executes i.fields = false → exec i s = .next { s with pc := s.pc + 1 }) ∧
    (∀ (i : Instr) (t : State), s.executes i.fields = true → leaves (exec i s) t →
      t.cond = aluFlags defaultAlu i.op i.fields s)

/-- R121, whole: every executed instruction calls the ALU with its opcode and operands and replaces the whole
flags value, whatever the opcode and the ALU, whether it then completes or fails; the result is the memory
address of LOAD and STORE. -/
def Obligations.ExecutedInstructionsReplaceTheFlags : Prop :=
  ∀ (alu : Alu) (op : Opcode) (f : Fields) (s : State), s.cond &&& f.cond ≠ 0 →
    let r := alu op (s.readReg f.src1) (s.readReg f.src2 + word f.offset)
    (∃ t, leaves (cycle alu op f s) t) ∧
    (∀ t, leaves (cycle alu op f s) t → t.cond = r.2) ∧
    (∀ t, op = .load → cycle alu op f s = .next t → f.target ≠ 0 → s.mem.read r.1 = .ok (t.readReg f.target)) ∧
    (∀ t a, op ∈ [Opcode.load, .store] → cycle alu op f s = .fault (.failure (.memoryFault a) t) → a = r.1) ∧
    (∀ t, op = .store → cycle alu op f s = .next t →
      s.mem.write r.1 (s.advancePc.readReg f.target) = .ok t.mem)

/-- R123, whole: every opcode but LOAD, STORE and HALT writes the ALU's result to its target, for every ALU;
target 0 discards it; target 15 replaces the advanced pc, and the next fetch is from the result. -/
def Obligations.OtherOpcodesCommitTheResult : Prop :=
  ∀ (alu : Alu) (op : Opcode) (f : Fields) (s : State), op ∉ [Opcode.load, .store, .halt] →
    s.cond &&& f.cond ≠ 0 →
    let r := alu op (s.readReg f.src1) (s.readReg f.src2 + word f.offset)
    let u : State := { s with pc := s.pc + 1, cond := r.2 }
    cycle alu op f s = .next (u.writeReg f.target r.1) ∧
    (f.target = 0 → cycle alu op f s = .next u) ∧
    (f.target = 15 → cycle alu op f s = .next { u with pc := r.1 } ∧
      ({ u with pc := r.1 } : State).fetch = s.mem.read r.1)

/-- R124, whole: LOAD writes the word read at the ALU's result to its target, for every ALU; a failing read
ends the step with the pc advanced, the flags replaced and the target not written; target 0 still reads;
target 15 is a jump to the loaded word. -/
def Obligations.LoadCommitsTheWordRead : Prop :=
  ∀ (alu : Alu) (f : Fields) (s : State), s.cond &&& f.cond ≠ 0 →
    let r := alu .load (s.readReg f.src1) (s.readReg f.src2 + word f.offset)
    let u : State := { s with pc := s.pc + 1, cond := r.2 }
    (∀ m, s.mem.read r.1 = .ok m →
      cycle alu .load f s = .next (u.writeReg f.target m) ∧
      (f.target = 0 → cycle alu .load f s = .next u) ∧
      (f.target = 15 → cycle alu .load f s = .next { u with pc := m })) ∧
    (∀ e, s.mem.read r.1 = .error e → e = .memoryFault r.1 ∧
      ∃ v, cycle alu .load f s = .fault (.failure e v) ∧ v.pc = s.pc + 1 ∧ v.cond = r.2 ∧
        (∀ q : RegIdx, q ≠ 15 → v.readReg q = s.readReg q))

/-- STORE writes the target's current value, not the result, to the ALU's result, for every ALU: for targets 1
to 14 the value at the start of the step, 0 for target 0, the advanced pc for target 15; a failing write
leaves the pc advanced, the flags replaced and the memory unchanged (section 2, R125; the latch of the failure
is decision D17). -/
def Obligations.StoreCommitsTheCurrentValue : Prop :=
  ∀ (alu : Alu) (f : Fields) (s : State), s.cond &&& f.cond ≠ 0 →
    let r := alu .store (s.readReg f.src1) (s.readReg f.src2 + word f.offset)
    let v : Word := if f.target = 0 then 0 else if f.target = 15 then s.pc + 1 else s.readReg f.target
    let u : State := { s with pc := s.pc + 1, cond := r.2 }
    (r.1.toNat < s.mem.words → cycle alu .store f s = .next { u with mem := s.mem.place r.1 v }) ∧
    (s.mem.words ≤ r.1.toNat →
      cycle alu .store f s = .fault (.failure (.memoryFault r.1)
        { u with running := false, fault := some (.memoryFault r.1) }))

/-- R126, whole: HALT sets halted and writes no register but the pc's advance, its flags are the ALU's, for
every ALU; the run ends after it. -/
def Obligations.HaltSetsHaltedAndWritesNoRegister : Prop :=
  ∀ (alu : Alu) (f : Fields) (s : State), s.cond &&& f.cond ≠ 0 →
    let r := alu .halt (s.readReg f.src1) (s.readReg f.src2 + word f.offset)
    ∃ t, cycle alu .halt f s = .next t ∧ t.halted = true ∧ t.pc = s.pc + 1 ∧ t.cond = r.2 ∧
      (∀ q : RegIdx, q ≠ 15 → t.readReg q = s.readReg q) ∧ t.mem = s.mem ∧
      (∀ n, runLoop n t = .next t)

/-- The rules of the sequencer under any parameters (spec/00_scope.md section 3: `LAYOUT`, `OPCODES`, `FLAGS`,
`NEVER`, `ALU`, `MEM_WORDS`, `COND_RESET`, `REG_RESET`). The record holds the fields that the decoder of `LAYOUT`,
`OPCODES` and `FLAGS` reads, whole, and so do the event and its ports. A step whose word is decoded is: skipped where
the predicate gives `NEVER`; else, where a register index of the record exceeds 15, the failure of its selection, in
the order target, src1, src2, after the event and before any other change (decision D29, the latch D17); else the pc
advanced, the flags those of `ALU`, and the commit of the opcode's class. A word the decoder does not read fails as
it says. The accesses are those of the given `ALU`. Reset gives `REG_RESET` and `COND_RESET`, construction a memory
of `MEM_WORDS`. At the spec's values, decisions D8 to D14, this is the machine of `step`, `decode` and `State.reset`.
What a value of `FLAGS` and of `OPCODES` consists of is the model's choice (notes/assumptions/20.md). -/
def Obligations.TheSequencerUnderAnyParameters : Prop :=
  (∀ (p : Params) (s : State p.flags.Flag p.opcodes.Op) (w : Word) (d : Decoded p.flags.Flag p.opcodes.Op),
    s.running = true → s.halted = false → s.mem.read s.pc = .ok w →
    decodeWith p.layout p.opcodes p.flags w = .ok d →
    let e : Event p.flags.Flag p.opcodes.Op := { pcAddr := s.pc, instrWord := w, instr := d }
    let u : State p.flags.Flag p.opcodes.Op := { s with trace := s.trace ++ [e] }
    let r := p.alu d.op (s.readReg (d.src1.setWidth 4)) (s.readReg (d.src2.setWidth 4) + word d.offset)
    let v : State p.flags.Flag p.opcodes.Op := { u with pc := s.pc + 1, cond := r.2 }
    let t : RegIdx := d.target.setWidth 4
    let failed (f : Failure) (x : State p.flags.Flag p.opcodes.Op) : Result p.flags.Flag p.opcodes.Op :=
      .fault (.failure f { x with running := false, fault := some f })
    let passes : Prop := p.flags.both s.cond d.cond ≠ p.never
    let valid : Prop := d.target.toNat ≤ 15 ∧ d.src1.toNat ≤ 15 ∧ d.src2.toNat ≤ 15
    (p.opcodes.number d.op = (p.layout.op.extract w).toNat ∧ d.cond = p.flags.ofField (p.layout.cond.extract w) ∧
      d.target = p.layout.target.extract w ∧ d.src1 = p.layout.src1.extract w ∧
      d.src2 = p.layout.src2.extract w ∧ d.offset = p.layout.offset.extractSigned w) ∧
    ((eventPortsWith p e).cond = (p.flags.toField d.cond).setWidth p.layout.cond.fieldWidth ∧
      (eventPortsWith p e).op.toNat = (p.layout.op.extract w).toNat ∧
      (eventPortsWith p e).target.toNat = (p.layout.target.extract w).toNat ∧
      (eventPortsWith p e).src1.toNat = (p.layout.src1.extract w).toNat ∧
      (eventPortsWith p e).src2.toNat = (p.layout.src2.extract w).toNat ∧
      (eventPortsWith p e).offset.toNat = (p.layout.offset.extract w).toNat) ∧
    (¬passes → stepWith p s = .next { u with pc := s.pc + 1 } ∧ stepAccessesWith p s = [.read s.pc]) ∧
    (passes → ¬valid → stepAccessesWith p s = [.read s.pc] ∧
      stepWith p s = failed (.invalidRegisterIndex
        (if 15 < d.target.toNat then d.target else if 15 < d.src1.toNat then d.src1 else d.src2)) u) ∧
    (passes → valid →
      (p.opcodes.kind d.op = .load → stepAccessesWith p s = [.read s.pc, .read r.1] ∧
        (∀ m, s.mem.read r.1 = .ok m → stepWith p s = .next (v.writeReg t m)) ∧
        (∀ f, s.mem.read r.1 = .error f → stepWith p s = failed f v)) ∧
      (p.opcodes.kind d.op = .store →
        stepAccessesWith p s = [.read s.pc, .write r.1 (s.advancePc.readReg t)] ∧
        (∀ m, s.mem.write r.1 (v.readReg t) = .ok m → stepWith p s = .next { v with mem := m }) ∧
        (∀ f, s.mem.write r.1 (v.readReg t) = .error f → stepWith p s = failed f v)) ∧
      (p.opcodes.kind d.op = .halt → stepAccessesWith p s = [.read s.pc] ∧
        stepWith p s = .next { v with halted := true, running := false }) ∧
      (p.opcodes.kind d.op = .other → stepAccessesWith p s = [.read s.pc] ∧
        stepWith p s = .next (v.writeReg t r.1)))) ∧
  (∀ (p : Params) (s : State p.flags.Flag p.opcodes.Op) (w : Word) (f : Failure),
    s.running = true → s.halted = false → s.mem.read s.pc = .ok w →
    decodeWith p.layout p.opcodes p.flags w = .error f →
    f = .invalidOpcode w ∧ p.opcodes.ofNumber (p.layout.op.extract w).toNat = none ∧
    stepWith p s = .fault (.failure f { s with running := false, fault := some f })) ∧
  (∀ (p : Params) (s : State p.flags.Flag p.opcodes.Op),
    (∀ r : RegIdx, (hostResetWith p s).readReg r = if r = 0 then 0 else p.regReset) ∧
    (hostResetWith p s).cond = p.condReset ∧ (hostResetWith p s).mem = s.mem ∧
    p.reset.mem.words = p.memWords ∧ hostResetWith p p.reset = p.reset) ∧
  (∀ s : State, stepWith Params.spec s = step s) ∧
  (∀ (n : Nat) (s : State), runLoopWith Params.spec n s = runLoop n s) ∧
  (∀ (a : HostAction) (s : State), actWith Params.spec a s = act a s) ∧
  (∀ s : State, stepAccessesWith Params.spec s = stepAccesses s) ∧
  (∀ w : Word, decodeWith specLayout specOpcodes specFlags w =
    match decode w with
    | .ok i => .ok i.record
    | .error f => .error f) ∧
  Params.spec.reset = State.reset

/-! ## The instructions (spec/42_instructions.md; arithmetic and flags are decision D11) -/

/-- ADD completes in every state in which its predicate passes, with the sum modulo 2^32 of the two registers
and the signed offset, and the flags of it (section 4, ADD; decision D11). -/
def Obligations.AddResult : Prop :=
  ∀ (f : Fields) (s : State), s.cond &&& f.cond ≠ 0 →
    let r : Word := BitVec.ofInt 32 ((s.readReg f.src1).toNat + (s.readReg f.src2).toNat + f.offset)
    ∃ t, exec (.add f) s = .next t ∧ wrote s t f.target r (ruleFlags r)

/-- SUB completes, with the first register less the sum of the second and the offset, modulo 2^32, and the
flags of it (section 4, SUB; decision D11). -/
def Obligations.SubResult : Prop :=
  ∀ (f : Fields) (s : State), s.cond &&& f.cond ≠ 0 →
    let r : Word := BitVec.ofInt 32 ((s.readReg f.src1).toNat - ((s.readReg f.src2).toNat + f.offset))
    ∃ t, exec (.sub f) s = .next t ∧ wrote s t f.target r (ruleFlags r)

/-- MUL completes, with the low 32 bits of the product, the same whether the operands are read unsigned or
signed, and the flags of it (section 4, MUL; decision D11). -/
def Obligations.MulResult : Prop :=
  ∀ (f : Fields) (s : State), s.cond &&& f.cond ≠ 0 →
    let r : Word := BitVec.ofInt 32 ((s.readReg f.src1).toNat * ((s.readReg f.src2).toNat + f.offset))
    r = BitVec.ofInt 32 (signed (s.readReg f.src1) * (signed (s.readReg f.src2) + f.offset)) ∧
    ∃ t, exec (.mul f) s = .next t ∧ wrote s t f.target r (ruleFlags r)

/-- DIV completes. A zero divisor gives 0 and V. Any other gives the signed quotient rounded toward minus
infinity, so that the remainder takes the sign of the divisor, modulo 2^32, and the flags of it; the one
overflow wraps (section 4, DIV; decision D11). -/
def Obligations.DivResult : Prop :=
  ∀ (f : Fields) (s : State), s.cond &&& f.cond ≠ 0 →
    let n := signed (s.readReg f.src1)
    let d := signed (s.readReg f.src2 + word f.offset)
    (d = 0 → ∃ t, exec (.div f) s = .next t ∧ wrote s t f.target 0 8) ∧
    (d ≠ 0 → ∃ (t : State) (q m : Int), n = q * d + m ∧ (0 ≤ m ∧ m < d ∨ d < m ∧ m ≤ 0) ∧
      exec (.div f) s = .next t ∧ wrote s t f.target (word q) (ruleFlags (word q)))

/-- LOAD completes wherever its address exists, with the word there, placed or not, and the flags of the
address (section 3, LOAD; the address sum and its flags are decision D11, an unplaced word's value is a free value,
notes/assumptions/2.md). -/
def Obligations.LoadResult : Prop :=
  ∀ (f : Fields) (s : State), s.cond &&& f.cond ≠ 0 →
    let a : Word := BitVec.ofInt 32 ((s.readReg f.src1).toNat + (s.readReg f.src2).toNat + f.offset)
    a.toNat < s.mem.words →
    ∃ t v, s.mem.read a = .ok v ∧ exec (.load f) s = .next t ∧ wrote s t f.target v (ruleFlags a)

/-- STORE completes wherever its address exists: the target's current value is read back there, the pc has
advanced, the flags are those of the address (section 3, STORE; the address sum and its flags are decision D11). -/
def Obligations.StoreResult : Prop :=
  ∀ (f : Fields) (s : State), s.cond &&& f.cond ≠ 0 →
    let a : Word := BitVec.ofInt 32 ((s.readReg f.src1).toNat + (s.readReg f.src2).toNat + f.offset)
    a.toNat < s.mem.words →
    ∃ t, exec (.store f) s = .next t ∧ t.pc = s.pc + 1 ∧ t.cond = ruleFlags a ∧
      t.mem.read a = .ok (if f.target = 15 then s.pc + 1 else s.readReg f.target)

/-- HALT completes in every state in which its predicate passes: pc advanced, flags Z, halted, the run over,
nothing else changed (section 2, HALT; the flags Z are decision D11, the bit `running` is decision D15). -/
def Obligations.HaltResult : Prop :=
  ∀ (f : Fields) (s : State), s.cond &&& f.cond ≠ 0 →
    exec (.halt f) s = .next { s with pc := s.pc + 1, cond := 2, halted := true, running := false }

/-- What the flags can be after an executed instruction: exactly one of M, Z, P and V, and V only from a DIV
by zero (section 1, the flags; decision D11). -/
def Obligations.ExactlyOneFlagAfterExecution : Prop :=
  ∀ (i : Instr) (s t : State), s.cond &&& i.fields.cond ≠ 0 → leaves (exec i s) t →
    (t.cond = 1 ∨ t.cond = 2 ∨ t.cond = 4 ∨ t.cond = 8) ∧
    (t.cond = 8 ↔ i.op = .div ∧ s.readReg i.fields.src2 + word i.fields.offset = 0)

/-! ## Frames -/

/-- ADD, SUB, MUL, DIV and LOAD change at most the target register, the pc and the flags: every other register
(those of a LOAD's address among them), the control bits, the latch, the trace and every word of memory stay
(sections 3 and 4). -/
def Obligations.ArithmeticAndLoadFrame : Prop :=
  ∀ (i : Instr) (s t : State), i.op ∈ [Opcode.add, .sub, .mul, .div, .load] → exec i s = .next t →
    otherRegsSame s t i.fields.target ∧ controlSame s t ∧ memSame s t

/-- STORE changes at most the pc, the flags and the one word at the ALU's result; a skipped STORE no word
(section 3; the address sum is decision D11). -/
def Obligations.StoreFrame : Prop :=
  ∀ (f : Fields) (s t : State), exec (.store f) s = .next t →
    (∀ r : RegIdx, r ≠ 15 → t.readReg r = s.readReg r) ∧ controlSame s t ∧
    (s.cond &&& f.cond = 0 → memSame s t) ∧
    (∀ a b : Word, aluResult defaultAlu .store f s = a → b ≠ a → t.mem.read b = s.mem.read b)

/-- HALT changes at most the pc, the flags, halted and running (section 2; the bit `running` is decision D15). -/
def Obligations.HaltFrame : Prop :=
  ∀ (f : Fields) (s t : State), exec (.halt f) s = .next t →
    (∀ r : RegIdx, r ≠ 15 → t.readReg r = s.readReg r) ∧ memSame s t ∧
    t.fault = s.fault ∧ t.trace = s.trace ∧ t.listeners = s.listeners ∧
    (s.cond &&& f.cond = 0 → t.halted = s.halted ∧ t.running = s.running)

/-! ## Failures (spec/60_exceptions.md; the latch is decision D17) -/

/-- A failing fetch, and else a failing decode, ends the step before anything has changed and before any event,
whatever the instruction's predicate; the failure is latched and the sequencer stops running (rows 1 and 2 of
the table of section 1; the latch is decision D17, the place of the opcode check decision D18). -/
def Obligations.FetchAndDecodeFailures : Prop :=
  ∀ s : State, s.running = true → s.halted = false →
    (s.mem.words ≤ s.pc.toNat →
      step s = .fault (.failure (.memoryFault s.pc)
        { s with running := false, fault := some (.memoryFault s.pc) })) ∧
    (∀ w, s.mem.read s.pc = .ok w →
      ((w.extractLsb' 26 5).toNat = 4 ∨ 8 ≤ (w.extractLsb' 26 5).toNat) →
      step s = .fault (.failure (.invalidOpcode w)
        { s with running := false, fault := some (.invalidOpcode w) }))

/-- A LOAD or STORE whose predicate passes and whose address does not exist fails with the address, the pc
advanced, the flags replaced, the target and the memory unchanged, the failure latched (rows 3 and 4 of the
table of section 1; the latch is decision D17, the address sum and its flags D11). -/
def Obligations.DataAccessFailures : Prop :=
  ∀ (f : Fields) (s : State), s.cond &&& f.cond ≠ 0 →
    let a : Word := BitVec.ofInt 32 ((s.readReg f.src1).toNat + (s.readReg f.src2).toNat + f.offset)
    s.mem.words ≤ a.toNat →
    let u : State := { s with
      pc := s.pc + 1
      cond := ruleFlags a
      running := false
      fault := some (.memoryFault a) }
    exec (.load f) s = .fault (.failure (.memoryFault a) u) ∧
    exec (.store f) s = .fault (.failure (.memoryFault a) u)

/-- What is no failure (section 1): an ADD, SUB, MUL, DIV or HALT, and a skipped instruction, completes in
every state; so the only failure of an instruction is a LOAD's or STORE's address (the latch is decision D17). -/
def Obligations.OnlyDataAccessesFail : Prop :=
  ∀ (i : Instr) (s : State),
    (∃ t, exec i s = .next t) ∨
    ((i.op = .load ∨ i.op = .store) ∧ s.cond &&& i.fields.cond ≠ 0 ∧
      ∃ a t, s.mem.words ≤ a.toNat ∧ exec i s = .fault (.failure (.memoryFault a) t) ∧
        t.fault = some (.memoryFault a) ∧ t.running = false ∧ t.halted = s.halted)

/-! ## Whole-machine rules -/

/-- Every step that decodes its word emits exactly one event, of the pc before any advance, the raw word and the
decoded instruction, whether the instruction executes, is skipped or fails; a step that fails in fetch or
decode emits none; the trace is only appended to (section 2 of the sequencer; the trace is decision D21). -/
def Obligations.OneEventPerDecodedInstruction : Prop :=
  ∀ s t : State, leaves (step s) t →
    (∃ w i, s.mem.read s.pc = .ok w ∧ decode w = .ok i ∧
      t.trace = s.trace ++ [{ pcAddr := s.pc, instrWord := w, instr := i.record }]) ∨
    ((∀ w i, s.mem.read s.pc = .ok w → decode w ≠ .ok i) ∧ t.trace = s.trace)

/-- Where the next fetch is from: the loaded word for an executed LOAD with target 15, the result for an
executed arithmetic instruction with target 15, the next address for everything else (section 4 of the
sequencer, control transfer; the results are decision D11). -/
def Obligations.ControlTransfersByRegisterFifteenOnly : Prop :=
  ∀ s t : State, step s = .next t →
    ∃ w i, s.mem.read s.pc = .ok w ∧ decode w = .ok i ∧
      t.pc =
        if s.cond &&& i.fields.cond = 0 ∨ i.fields.target ≠ 15 ∨ i.op = .store ∨ i.op = .halt then s.pc + 1
        else if i.op = .load then s.mem.wordAt (aluResult defaultAlu i.op i.fields s).toNat
        else aluResult defaultAlu i.op i.fields s

/-- R18, whole: halted is set by the commit of a HALT and by nothing else, cleared by `run` and by reset and by
nothing else, and read by the loop of `run`, which steps while it is 0 and stops once it is 1. -/
def Obligations.OnlyHaltSetsHalted : Prop :=
  (∀ s t : State, leaves (step s) t →
    (t.halted = true ↔ ∃ w f, s.mem.read s.pc = .ok w ∧ decode w = .ok (.halt f) ∧ s.cond &&& f.cond ≠ 0)) ∧
  (∀ (a : HostAction) (s t : State), act a s = .next t → t.halted ≠ s.halted →
    a = .reset ∧ t.halted = false ∨ (∃ from', a = .run from' ∧ t.halted = false) ∨
      (a = .clock true ∧ t.halted = true)) ∧
  (∀ s : State, (hostReset s).halted = false) ∧
  (∀ (a : Word) (s : State), s.running = false → s.fault = none →
    ∃ t, hostRun a s = .next t ∧ t.halted = false) ∧
  (∀ (n : Nat) (s : State), s.halted = true → runLoop n s = .next s) ∧
  (∀ (n : Nat) (s t : State), s.running = true → s.halted = false → step s = .next t →
    runLoop (n + 1) s = runLoop n t) ∧
  (∀ (n : Nat) (s : State) (r : Fault), s.running = true → s.halted = false → step s = .fault r →
    runLoop (n + 1) s = .fault r)

/-- R17, whole: the flags are written by sub-step 6 of an executed instruction alone, as the ALU gives them;
they are read by the predicate check alone, so two states that differ only in flags on which the predicate
agrees make the same outcome, and a skipped instruction keeps them; `run` does not write them, nor does any other
action of the host but the clock of a step, and reset, which is the machine's construction anew (R26). For every
ALU. -/
def Obligations.FlagsAreReadByThePredicateAlone : Prop :=
  (∀ (alu : Alu) (op : Opcode) (f : Fields) (s t : State), leaves (cycle alu op f s) t →
    t.cond = if s.cond &&& f.cond = 0 then s.cond
      else (alu op (s.readReg f.src1) (s.readReg f.src2 + word f.offset)).2) ∧
  (∀ (alu : Alu) (op : Opcode) (f : Fields) (s : State) (c : Flags),
    s.cond &&& f.cond ≠ 0 → c &&& f.cond ≠ 0 →
    cycle alu op f { s with cond := c } = cycle alu op f s) ∧
  (∀ (alu : Alu) (op : Opcode) (f : Fields) (s : State) (c : Flags),
    s.cond &&& f.cond = 0 → c &&& f.cond = 0 →
    cycle alu op f { s with cond := c } = mapState (fun t => { t with cond := c }) (cycle alu op f s)) ∧
  (∀ s t : State, leaves (step s) t → t.cond ≠ s.cond →
    ∃ w i, s.mem.read s.pc = .ok w ∧ decode w = .ok i ∧ s.cond &&& i.fields.cond ≠ 0 ∧
      t.cond = aluFlags defaultAlu i.op i.fields s) ∧
  (∀ (a : Word) (s t : State), hostRun a s = .next t → t.cond = s.cond) ∧
  (∀ (a : HostAction) (s t : State), act a s = .next t → t.cond ≠ s.cond →
    a = .reset ∨ (a = .clock true ∧ step s = .next t))

/-- R44, whole: the fetch reads one word at the pc, an executed LOAD reads one word and an executed STORE
writes one at the ALU's result, in that order, and nothing else reaches memory: a step from a state with
another memory that answers those accesses alike makes the same outcome, and what it leaves in memory is the
effect of those accesses. -/
def Obligations.StepsReachMemoryInThreeWaysOnly : Prop :=
  (∀ (s : State) (w : Word) (i : Instr), s.running = true → s.halted = false →
    s.mem.read s.pc = .ok w → decode w = .ok i →
    stepAccesses s = .read s.pc ::
      (if s.cond &&& i.fields.cond = 0 then []
        else if i.op = .load then [.read (aluResult defaultAlu i.op i.fields s)]
        else if i.op = .store then
          [.write (aluResult defaultAlu i.op i.fields s) (s.advancePc.readReg i.fields.target)]
        else [])) ∧
  (∀ (s : State) (m : Memory),
    (∀ a, .read a ∈ stepAccesses s → m.read a = s.mem.read a) →
    (∀ a v, .write a v ∈ stepAccesses s → m.accepts a = s.mem.accepts a) →
    step { s with mem := m } =
      mapState (fun t => { t with mem := (stepAccesses s).foldl Memory.afterAccess m }) (step s))

/-- A store is seen by the very next fetch, and by every read, with no further action (section 4 of
spec/20_memory.md). -/
def Obligations.StoresAreSeenByTheNextFetch : Prop :=
  ∀ (s t : State) (w : Word) (f : Fields), s.mem.read s.pc = .ok w → decode w = .ok (.store f) →
    s.cond &&& f.cond ≠ 0 → step s = .next t →
    let a := aluResult defaultAlu .store f s
    let v := s.advancePc.readReg f.target
    t.mem.read a = .ok v ∧ (a = s.pc + 1 → t.fetch = .ok v)

/-- A STORE and then a LOAD of the same address into another register than 0 yields the stored value (the
source's property, spec/42_instructions.md section 3; the address sum is decision D11). -/
def Obligations.LoadAfterStoreYieldsTheValue : Prop :=
  ∀ (s t : State) (f g : Fields), s.cond &&& f.cond ≠ 0 → exec (.store f) s = .next t →
    t.cond &&& g.cond ≠ 0 → aluResult defaultAlu .load g t = aluResult defaultAlu .store f s → g.target ≠ 0 →
    ∃ u, exec (.load g) t = .next u ∧ u.readReg g.target = s.advancePc.readReg f.target

/-- The event trace and the listeners are outputs: nothing in the machine reads them back (section 5 of
spec/10_state.md; decision D21). -/
def Obligations.TheTraceIsNeverReadBack : Prop :=
  (∀ (i : Instr) (s : State) (tr : List Event) (ls : List Nat),
    exec i { s with trace := tr, listeners := ls } =
      mapState (fun t => { t with trace := tr, listeners := ls }) (exec i s)) ∧
  (∀ (s : State) (tr : List Event) (ls : List Nat),
    step { s with trace := tr, listeners := ls } =
      mapState (fun t => { t with trace := tr ++ t.trace.drop s.trace.length, listeners := ls }) (step s))

/-! ## Reset, runs and the invariant -/

/-- What reset leaves: every register 0, all four flags set, Idle, nothing latched, no event, no listener, and
the memory untouched (spec/10_state.md section 6). The values are the spec's decisions D13 to D17. -/
def Obligations.ResetLeaves : Prop :=
  ∀ s : State,
    (∀ r : RegIdx, (hostReset s).readReg r = 0) ∧ (hostReset s).pc = 0 ∧ (hostReset s).cond = 15 ∧
    (hostReset s).phase = .idle ∧ (hostReset s).halted = false ∧ (hostReset s).running = false ∧
    (hostReset s).fault = none ∧ (hostReset s).trace = [] ∧ (hostReset s).listeners = [] ∧
    (hostReset s).mem = s.mem ∧ hostReset State.reset = State.reset

/-- R191, whole: `run` is not a reset. It sets halted to 0 and the pc to its argument, and leaves registers 1 to
14, the flags and the memory as they were. -/
def Obligations.RunIsNotAReset : Prop :=
  ∀ (a : Word) (s : State), s.running = false → s.fault = none →
    ∃ t, hostRun a s = .next t ∧ t.halted = false ∧ t.pc = a ∧
      (∀ r : RegIdx, r ≠ 15 → t.readReg r = s.readReg r) ∧ t.cond = s.cond ∧ t.mem = s.mem

/-- Operations outside their state, and holding (section 3 of the sequencer; decisions D17, D20, D28): a step
that is not Running has no transition; `run` is ignored while Running and refused while a fault is latched; a
held sequencer does not change; a host stop clears running and nothing else. The host's other actions (table of R195,
decision D27; the names of the refusals: notes/assumptions/11.md): while Running no memory word is loaded or read
and no listener changes; while not Running a word is loaded and read through the memory's own put and get, and the
listeners change and nothing else does (that a removal takes the first entry of its listener, and changes nothing
where there is none, is the model's choice: notes/assumptions/10.md); the registers, the pc, the flags, halted and
the latch are read while not Running or held, and not while steps go on. -/
def Obligations.OperationsOutsideTheirState : Prop :=
  ∀ (a : Word) (s : State),
    (s.running = false → step s = .fault .notRunning) ∧
    (s.running = true → hostRun a s = .next s) ∧
    (s.running = false → s.fault ≠ none → hostRun a s = .refused .runWhileFaultLatched) ∧
    gatedStep false s = .next s ∧ gatedStep true s = step s ∧
    hostStop s = { s with running := false } ∧
    (s.running = true → ∀ (v : Word) (l : Nat),
      hostLoadWord a v s = .refused .hostActionWhileRunning ∧
      hostReadWord a s = .refused .hostActionWhileRunning ∧
      hostAddListener l s = .refused .hostActionWhileRunning ∧
      hostRemoveListener l s = .refused .hostActionWhileRunning ∧
      ∀ what, hostRead true what s = .refused .hostActionWhileRunning) ∧
    (s.running = false → ∀ (v : Word) (l : Nat),
      (∀ m, s.mem.write a v = .ok m → hostLoadWord a v s = .next { s with mem := m }) ∧
      (∀ e, s.mem.write a v = .error e → hostLoadWord a v s = .refused (.hostAccessRejected a)) ∧
      (∀ w, s.mem.read a = .ok w → hostReadWord a s = .next w) ∧
      (∀ e, s.mem.read a = .error e → hostReadWord a s = .refused (.hostAccessRejected a)) ∧
      hostAddListener l s = .next { s with listeners := s.listeners ++ [l] } ∧
      hostRemoveListener l s = .next { s with listeners := s.listeners.erase l }) ∧
    (∀ en, s.running = false ∨ en = false →
      (∀ r, hostRead en (.reg r) s = .next (.word (s.readReg r))) ∧
      hostRead en .pc s = .next (.word s.pc) ∧ hostRead en .cond s = .next (.flags s.cond) ∧
      hostRead en .halted s = .next (.bit s.halted) ∧ hostRead en .fault s = .next (.latch s.fault))

/-- How a program comes to run: a word that the host loads while not Running, and then runs from, is the
instruction of the next step (spec/70_reset_and_hazards.md section 2; what the host may do is decision D27, the
latch D17, the bit `running` D15). -/
def Obligations.LoadedWordRunsAfterRun : Prop :=
  ∀ (s : State) (a v : Word) (i : Instr), s.running = false → s.fault = none → a.toNat < s.mem.words →
    decode v = .ok i →
    ∃ t u, hostLoadWord a v s = .next t ∧ hostRun a t = .next u ∧
      u = { s with mem := s.mem.place a v, halted := false, pc := a, running := true } ∧
      step u = exec i (u.notify v i.record)

/-- A run completes by the step that commits a HALT, and only by it; its final state is the one that step left
(section 3 of the sequencer; the bit `running` is decision D15, HALT's flags D11). -/
def Obligations.RunsCompleteByHaltOnly : Prop :=
  ∀ s t : State, s.Inv → step s = .next t →
    (t.completed ↔
      ∃ w f, s.mem.read s.pc = .ok w ∧ decode w = .ok (.halt f) ∧ s.cond &&& f.cond ≠ 0) ∧
    (t.completed → t.pc = s.pc + 1 ∧ t.cond = 2 ∧ t.mem = s.mem ∧ ∀ n, runLoop (n + 1) s = .next t) ∧
    (¬t.completed → t.phase = .running)

/-- The machine right after reset, connected to the memory the model chose (notes/assumptions/1.md), meets the
invariant (the reset values are decisions D13 to D17). -/
def Obligations.ResetMeetsTheInvariant : Prop := State.reset.Inv

/-- Every step keeps the invariant, whether it completes or fails, and so does every action of the host; the machine
constructed with any memory in its canonical form meets it. The invariant is: the memory's canonical
form, never running and halted at once, a latched fault only while Idle, legal flags (R19, R111, R142; decisions D11,
D14, D15, D17; the memory's form is the model's, notes/assumptions/2.md). -/
def Obligations.StepsKeepTheInvariant : Prop :=
  (∀ s t : State, s.Inv → step s = .next t → t.Inv) ∧
  (∀ (s t : State) (r : Failure), s.Inv → step s = .fault (.failure r t) → t.Inv) ∧
  (∀ (a : HostAction) (s t : State), s.Inv → act a s = .next t → t.Inv) ∧
  (∀ m : Memory, m.wf → (hostConnect m).Inv)

/-- Every state the machine can be in meets the invariant: constructed with any memory, under any sequence of
steps and host actions, failed steps included; and a failed step leaves it Idle with the failure latched (R111,
R168, R195; decisions D11, D14, D15, D17, D27; the memory's form is the model's, notes/assumptions/2.md). -/
def Obligations.ReachableStatesMeetTheInvariant : Prop :=
  (∀ s : State, Reachable s → s.Inv) ∧
  (∀ (s t : State) (r : Failure), Reachable s → step s = .fault (.failure r t) →
    t.phase = .idle ∧ t.fault = some r ∧ (hostOutputs t).faultCode = r.code)
end

