-- ==== Sys2Proof/Laws/State.lean ====
section
/-! SUPPORT. One lemma per field of State per named update, and the fields of the states that the host's
actions make, so that no later proof unfolds a record update. -/

namespace Sys2Proof.Machine

variable {F Op : Type}

@[simp] theorem State.advancePc_gpr (s : State F Op) : s.advancePc.gpr = s.gpr := rfl
@[simp] theorem State.advancePc_pc (s : State F Op) : s.advancePc.pc = s.pc + pcStep := rfl
@[simp] theorem State.advancePc_cond (s : State F Op) : s.advancePc.cond = s.cond := rfl
@[simp] theorem State.advancePc_halted (s : State F Op) : s.advancePc.halted = s.halted := rfl
@[simp] theorem State.advancePc_running (s : State F Op) : s.advancePc.running = s.running := rfl
@[simp] theorem State.advancePc_fault (s : State F Op) : s.advancePc.fault = s.fault := rfl
@[simp] theorem State.advancePc_mem (s : State F Op) : s.advancePc.mem = s.mem := rfl
@[simp] theorem State.advancePc_trace (s : State F Op) : s.advancePc.trace = s.trace := rfl
@[simp] theorem State.advancePc_listeners (s : State F Op) : s.advancePc.listeners = s.listeners := rfl

@[simp] theorem State.setCond_gpr (s : State F Op) (c : F) : (s.setCond c).gpr = s.gpr := rfl
@[simp] theorem State.setCond_pc (s : State F Op) (c : F) : (s.setCond c).pc = s.pc := rfl
@[simp] theorem State.setCond_cond (s : State F Op) (c : F) : (s.setCond c).cond = c := rfl
@[simp] theorem State.setCond_halted (s : State F Op) (c : F) : (s.setCond c).halted = s.halted := rfl
@[simp] theorem State.setCond_running (s : State F Op) (c : F) : (s.setCond c).running = s.running := rfl
@[simp] theorem State.setCond_fault (s : State F Op) (c : F) : (s.setCond c).fault = s.fault := rfl
@[simp] theorem State.setCond_mem (s : State F Op) (c : F) : (s.setCond c).mem = s.mem := rfl
@[simp] theorem State.setCond_trace (s : State F Op) (c : F) : (s.setCond c).trace = s.trace := rfl
@[simp] theorem State.setCond_listeners (s : State F Op) (c : F) :
    (s.setCond c).listeners = s.listeners := rfl

@[simp] theorem State.setMem_gpr (s : State F Op) (m : Memory) : (s.setMem m).gpr = s.gpr := rfl
@[simp] theorem State.setMem_pc (s : State F Op) (m : Memory) : (s.setMem m).pc = s.pc := rfl
@[simp] theorem State.setMem_cond (s : State F Op) (m : Memory) : (s.setMem m).cond = s.cond := rfl
@[simp] theorem State.setMem_halted (s : State F Op) (m : Memory) : (s.setMem m).halted = s.halted := rfl
@[simp] theorem State.setMem_running (s : State F Op) (m : Memory) : (s.setMem m).running = s.running := rfl
@[simp] theorem State.setMem_fault (s : State F Op) (m : Memory) : (s.setMem m).fault = s.fault := rfl
@[simp] theorem State.setMem_mem (s : State F Op) (m : Memory) : (s.setMem m).mem = m := rfl
@[simp] theorem State.setMem_trace (s : State F Op) (m : Memory) : (s.setMem m).trace = s.trace := rfl
@[simp] theorem State.setMem_listeners (s : State F Op) (m : Memory) :
    (s.setMem m).listeners = s.listeners := rfl

@[simp] theorem State.notify_gpr (s : State F Op) (w : Word) (d : Decoded F Op) :
    (s.notify w d).gpr = s.gpr := rfl
@[simp] theorem State.notify_pc (s : State F Op) (w : Word) (d : Decoded F Op) :
    (s.notify w d).pc = s.pc := rfl
@[simp] theorem State.notify_cond (s : State F Op) (w : Word) (d : Decoded F Op) :
    (s.notify w d).cond = s.cond := rfl
@[simp] theorem State.notify_halted (s : State F Op) (w : Word) (d : Decoded F Op) :
    (s.notify w d).halted = s.halted := rfl
@[simp] theorem State.notify_running (s : State F Op) (w : Word) (d : Decoded F Op) :
    (s.notify w d).running = s.running := rfl
@[simp] theorem State.notify_fault (s : State F Op) (w : Word) (d : Decoded F Op) :
    (s.notify w d).fault = s.fault := rfl
@[simp] theorem State.notify_mem (s : State F Op) (w : Word) (d : Decoded F Op) :
    (s.notify w d).mem = s.mem := rfl
@[simp] theorem State.notify_trace (s : State F Op) (w : Word) (d : Decoded F Op) :
    (s.notify w d).trace = s.trace ++ [{ pcAddr := s.pc, instrWord := w, instr := d }] :=
  rfl
@[simp] theorem State.notify_listeners (s : State F Op) (w : Word) (d : Decoded F Op) :
    (s.notify w d).listeners = s.listeners :=
  rfl

@[simp] theorem State.commitHalt_gpr (s : State F Op) : s.commitHalt.gpr = s.gpr := rfl
@[simp] theorem State.commitHalt_pc (s : State F Op) : s.commitHalt.pc = s.pc := rfl
@[simp] theorem State.commitHalt_cond (s : State F Op) : s.commitHalt.cond = s.cond := rfl
@[simp] theorem State.commitHalt_halted (s : State F Op) : s.commitHalt.halted = true := rfl
@[simp] theorem State.commitHalt_running (s : State F Op) : s.commitHalt.running = false := rfl
@[simp] theorem State.commitHalt_fault (s : State F Op) : s.commitHalt.fault = s.fault := rfl
@[simp] theorem State.commitHalt_mem (s : State F Op) : s.commitHalt.mem = s.mem := rfl
@[simp] theorem State.commitHalt_trace (s : State F Op) : s.commitHalt.trace = s.trace := rfl
@[simp] theorem State.commitHalt_listeners (s : State F Op) : s.commitHalt.listeners = s.listeners := rfl

@[simp] theorem State.latch_gpr (s : State F Op) (f : Failure) : (s.latch f).gpr = s.gpr := rfl
@[simp] theorem State.latch_pc (s : State F Op) (f : Failure) : (s.latch f).pc = s.pc := rfl
@[simp] theorem State.latch_cond (s : State F Op) (f : Failure) : (s.latch f).cond = s.cond := rfl
@[simp] theorem State.latch_halted (s : State F Op) (f : Failure) : (s.latch f).halted = s.halted := rfl
@[simp] theorem State.latch_running (s : State F Op) (f : Failure) : (s.latch f).running = false := rfl
@[simp] theorem State.latch_fault (s : State F Op) (f : Failure) : (s.latch f).fault = some f := rfl
@[simp] theorem State.latch_mem (s : State F Op) (f : Failure) : (s.latch f).mem = s.mem := rfl
@[simp] theorem State.latch_trace (s : State F Op) (f : Failure) : (s.latch f).trace = s.trace := rfl
@[simp] theorem State.latch_listeners (s : State F Op) (f : Failure) :
    (s.latch f).listeners = s.listeners := rfl

@[simp] theorem hostStop_gpr (s : State F Op) : (hostStop s).gpr = s.gpr := rfl
@[simp] theorem hostStop_pc (s : State F Op) : (hostStop s).pc = s.pc := rfl
@[simp] theorem hostStop_cond (s : State F Op) : (hostStop s).cond = s.cond := rfl
@[simp] theorem hostStop_halted (s : State F Op) : (hostStop s).halted = s.halted := rfl
@[simp] theorem hostStop_running (s : State F Op) : (hostStop s).running = false := rfl
@[simp] theorem hostStop_fault (s : State F Op) : (hostStop s).fault = s.fault := rfl
@[simp] theorem hostStop_mem (s : State F Op) : (hostStop s).mem = s.mem := rfl
@[simp] theorem hostStop_trace (s : State F Op) : (hostStop s).trace = s.trace := rfl
@[simp] theorem hostStop_listeners (s : State F Op) : (hostStop s).listeners = s.listeners := rfl

@[simp] theorem State.writeReg_cond (s : State F Op) (r : RegIdx) (v : Word) :
    (s.writeReg r v).cond = s.cond := by
  simp only [State.writeReg]; split <;> [rfl; (split <;> rfl)]
@[simp] theorem State.writeReg_halted (s : State F Op) (r : RegIdx) (v : Word) :
    (s.writeReg r v).halted = s.halted := by
  simp only [State.writeReg]; split <;> [rfl; (split <;> rfl)]
@[simp] theorem State.writeReg_running (s : State F Op) (r : RegIdx) (v : Word) :
    (s.writeReg r v).running = s.running := by
  simp only [State.writeReg]; split <;> [rfl; (split <;> rfl)]
@[simp] theorem State.writeReg_fault (s : State F Op) (r : RegIdx) (v : Word) :
    (s.writeReg r v).fault = s.fault := by
  simp only [State.writeReg]; split <;> [rfl; (split <;> rfl)]
@[simp] theorem State.writeReg_mem (s : State F Op) (r : RegIdx) (v : Word) :
    (s.writeReg r v).mem = s.mem := by
  simp only [State.writeReg]; split <;> [rfl; (split <;> rfl)]
@[simp] theorem State.writeReg_trace (s : State F Op) (r : RegIdx) (v : Word) :
    (s.writeReg r v).trace = s.trace := by
  simp only [State.writeReg]; split <;> [rfl; (split <;> rfl)]
@[simp] theorem State.writeReg_listeners (s : State F Op) (r : RegIdx) (v : Word) :
    (s.writeReg r v).listeners = s.listeners := by
  simp only [State.writeReg]; split <;> [rfl; (split <;> rfl)]

@[simp] theorem State.resetWith_gpr (r : Word) (c : F) (m : Memory) :
    (State.resetWith r c m : State F Op).gpr = Vector.replicate 14 r := rfl
@[simp] theorem State.resetWith_pc (r : Word) (c : F) (m : Memory) :
    (State.resetWith r c m : State F Op).pc = r := rfl
@[simp] theorem State.resetWith_cond (r : Word) (c : F) (m : Memory) :
    (State.resetWith r c m : State F Op).cond = c := rfl
@[simp] theorem State.resetWith_halted (r : Word) (c : F) (m : Memory) :
    (State.resetWith r c m : State F Op).halted = false := rfl
@[simp] theorem State.resetWith_running (r : Word) (c : F) (m : Memory) :
    (State.resetWith r c m : State F Op).running = false := rfl
@[simp] theorem State.resetWith_fault (r : Word) (c : F) (m : Memory) :
    (State.resetWith r c m : State F Op).fault = none := rfl
@[simp] theorem State.resetWith_mem (r : Word) (c : F) (m : Memory) :
    (State.resetWith r c m : State F Op).mem = m := rfl
@[simp] theorem State.resetWith_trace (r : Word) (c : F) (m : Memory) :
    (State.resetWith r c m : State F Op).trace = [] := rfl
@[simp] theorem State.resetWith_listeners (r : Word) (c : F) (m : Memory) :
    (State.resetWith r c m : State F Op).listeners = [] := rfl

@[simp] theorem hostConnect_gpr (m : Memory) : (hostConnect m).gpr = Vector.replicate 14 regReset := rfl
@[simp] theorem hostConnect_pc (m : Memory) : (hostConnect m).pc = regReset := rfl
@[simp] theorem hostConnect_cond (m : Memory) : (hostConnect m).cond = condReset := rfl
@[simp] theorem hostConnect_halted (m : Memory) : (hostConnect m).halted = false := rfl
@[simp] theorem hostConnect_running (m : Memory) : (hostConnect m).running = false := rfl
@[simp] theorem hostConnect_fault (m : Memory) : (hostConnect m).fault = none := rfl
@[simp] theorem hostConnect_mem (m : Memory) : (hostConnect m).mem = m := rfl
@[simp] theorem hostConnect_trace (m : Memory) : (hostConnect m).trace = [] := rfl
@[simp] theorem hostConnect_listeners (m : Memory) : (hostConnect m).listeners = [] := rfl

end Sys2Proof.Machine
end

