-- ==== Sys2Proof/Laws/Memory.lean ====
section
/-! SUPPORT. The memory: read after write, what a failed access says, and the canonical form, which every
memory operation keeps. -/

namespace Sys2Proof.Machine

theorem lookupCell_placeCell (l : List (Nat × Word)) (a b : Nat) (v : Word) :
    lookupCell (placeCell l a v) b = if b = a then some v else lookupCell l b := by
  induction l with
  | nil => simp [placeCell, lookupCell]
  | cons c rest ih =>
    obtain ⟨k, w⟩ := c
    simp only [placeCell]
    split
    · simp [lookupCell]
    · split <;> rename_i h1 h2
      · subst h2
        by_cases hb : b = a <;> simp [lookupCell, hb]
      · simp only [lookupCell, ih]
        by_cases hb : b = a
        · subst hb; simp [h2]
        · simp [hb]

theorem mem_placeCell {l : List (Nat × Word)} {a : Nat} {v : Word} {c : Nat × Word}
    (h : c ∈ placeCell l a v) : c = (a, v) ∨ c ∈ l := by
  induction l with
  | nil => simpa [placeCell] using h
  | cons d rest ih =>
    obtain ⟨k, w⟩ := d
    simp only [placeCell] at h
    split at h
    · simpa using h
    · split at h
      · rcases List.mem_cons.1 h with h | h
        · exact .inl h
        · exact .inr (List.mem_cons_of_mem _ h)
      · rcases List.mem_cons.1 h with h | h
        · exact .inr (by simp [h])
        · rcases ih h with h | h
          · exact .inl h
          · exact .inr (List.mem_cons_of_mem _ h)

theorem pairwise_placeCell {l : List (Nat × Word)} (a : Nat) (v : Word)
    (h : l.Pairwise fun c d => c.1 < d.1) : (placeCell l a v).Pairwise fun c d => c.1 < d.1 := by
  induction l with
  | nil => simp [placeCell]
  | cons c rest ih =>
    obtain ⟨k, w⟩ := c
    rw [List.pairwise_cons] at h
    simp only [placeCell]
    split
    · rename_i hlt
      refine List.pairwise_cons.2 ⟨fun d hd => ?_, List.pairwise_cons.2 h⟩
      rcases List.mem_cons.1 hd with hd | hd
      · simpa [hd] using hlt
      · exact lt_trans hlt (h.1 d hd)
    · split <;> rename_i h1 h2
      · subst h2
        exact List.pairwise_cons.2 ⟨fun d hd => h.1 d hd, h.2⟩
      · refine List.pairwise_cons.2 ⟨fun d hd => ?_, ih h.2⟩
        rcases mem_placeCell hd with hd | hd
        · subst hd; show k < a; omega
        · exact h.1 d hd

@[simp] theorem Memory.place_words (m : Memory) (a v : Word) : (m.place a v).words = m.words := rfl

@[simp] theorem Memory.accepts_place (m : Memory) (a v b : Word) :
    (m.place a v).accepts b = m.accepts b := rfl

/-- A read after a write: the word written, and elsewhere the word that was there (R43). -/
theorem Memory.wordAt_place (m : Memory) (a v : Word) (b : Nat) :
    (m.place a v).wordAt b = if b = a.toNat then v else m.wordAt b := by
  simp only [Memory.wordAt, Memory.place, lookupCell_placeCell]
  split <;> rfl

/-- Everything a read can answer (R42). -/
theorem Memory.read_cases (m : Memory) (a : Word) :
    (m.accepts a = true ∧ m.read a = .ok (m.wordAt a.toNat)) ∨
      (m.accepts a = false ∧ m.read a = .error (.memoryFault a)) := by
  cases h : m.accepts a <;> simp [Memory.read, h]

/-- Everything a write can answer (R43). -/
theorem Memory.write_cases (m : Memory) (a v : Word) :
    (m.accepts a = true ∧ m.write a v = .ok (m.place a v)) ∨
      (m.accepts a = false ∧ m.write a v = .error (.memoryFault a)) := by
  cases h : m.accepts a <;> simp [Memory.write, h]

theorem Memory.accepts_iff (m : Memory) (a : Word) : m.accepts a = true ↔ a.toNat < m.words := by
  simp [Memory.accepts]

/-- Placing a word at an address that exists keeps the canonical form. -/
theorem Memory.wf_place {m : Memory} {a : Word} (v : Word) (h : m.wf) (ha : m.accepts a = true) :
    (m.place a v).wf := by
  refine ⟨pairwise_placeCell _ _ h.1, fun c hc => ?_⟩
  rcases mem_placeCell hc with hc | hc
  · subst hc; exact (m.accepts_iff a).1 ha
  · exact h.2 c hc

/-- `MemWrite` keeps the canonical form. -/
theorem Memory.wf_write {m m' : Memory} {a v : Word} (h : m.wf) (hw : m.write a v = .ok m') : m'.wf := by
  rcases m.write_cases a v with ⟨ha, hr⟩ | ⟨_, hr⟩
  · cases hr.symm.trans hw; exact Memory.wf_place v h ha
  · cases hr.symm.trans hw

/-- The effect of any access keeps the canonical form. -/
theorem Memory.wf_afterAccess {m : Memory} (a : MemAccess) (h : m.wf) : (m.afterAccess a).wf := by
  cases a with
  | read _ => exact h
  | write addr v =>
    simp only [Memory.afterAccess]
    split
    · exact Memory.wf_place v h ‹_›
    · exact h

/-- The memory at reset has the canonical form. -/
theorem reset_mem_wf : State.reset.mem.wf := ⟨List.Pairwise.nil, by simp [State.reset, State.resetWith]⟩

/-- Placing an instruction for the next step keeps the canonical form. -/
theorem withFetchWord_mem_wf {s : State} (nbits w : Nat) (h : s.mem.wf) :
    (s.withFetchWord nbits w).mem.wf := by
  refine ⟨pairwise_placeCell _ _ h.1, fun c hc => ?_⟩
  show c.1 < max s.mem.words (s.pc.toNat + 1)
  rcases mem_placeCell hc with hc | hc
  · subst hc; exact lt_max_of_lt_right (Nat.lt_succ_self _)
  · exact lt_max_of_lt_left (h.2 c hc)

end Sys2Proof.Machine
end

