-- ==== Sys2Proof/Laws/Registers.lean ====
section
/-! SUPPORT. The register file: what a read gives after each update. Register numbers are written as
numerals in simp's normal form. -/

namespace Sys2Proof.Machine

variable {F Op : Type}

theorem State.readReg_zeroReg (s : State F Op) : s.readReg zeroReg = 0 := by simp [State.readReg]

theorem State.readReg_pcReg (s : State F Op) : s.readReg pcReg = s.pc := by
  simp [State.readReg, show ¬pcReg = zeroReg by decide]

theorem State.writeReg_zeroReg (s : State F Op) (v : Word) : s.writeReg zeroReg v = s := by
  simp [State.writeReg]

theorem State.writeReg_pcReg (s : State F Op) (v : Word) : s.writeReg pcReg v = { s with pc := v } := by
  simp [State.writeReg, show ¬pcReg = zeroReg by decide]

/-- A read depends on the pc and on the general registers alone. -/
theorem State.readReg_congr {s t : State F Op} {r : RegIdx} (hg : s.gpr = t.gpr) (hp : s.pc = t.pc) :
    s.readReg r = t.readReg r := by
  simp only [State.readReg, hg, hp]

/-- A read of any register but the pc depends on the general registers alone. -/
theorem State.readReg_congr_gpr {s t : State F Op} {r : RegIdx} (hg : s.gpr = t.gpr) (hr : r ≠ pcReg) :
    s.readReg r = t.readReg r := by
  simp only [State.readReg, hg, hr, dite_false]

/-- What a register holds after a write (R10 to R12). -/
theorem State.readReg_writeReg (s : State F Op) (r q : RegIdx) (v : Word) :
    (s.writeReg r v).readReg q = if q = zeroReg then 0 else if q = r then v else s.readReg q := by
  by_cases hq : q = zeroReg
  · simp [hq, State.readReg_zeroReg]
  by_cases hr : r = zeroReg
  · subst hr; simp [hq, State.writeReg_zeroReg]
  by_cases hr15 : r = pcReg
  · subst hr15
    by_cases hq15 : q = pcReg
    · simp [hq15, State.writeReg_pcReg, State.readReg_pcReg, show ¬pcReg = zeroReg by decide]
    · rw [State.writeReg_pcReg, if_neg hq, if_neg hq15]
      exact State.readReg_congr_gpr rfl hq15
  by_cases hq15 : q = pcReg
  · subst hq15
    simp [State.writeReg, State.readReg, hq, hr, hr15, Ne.symm hr15]
  by_cases hqr : q = r
  · subst hqr; simp [State.writeReg, State.readReg, hq, hq15]
  · have hne : r.toNat - 1 ≠ q.toNat - 1 := fun h => hqr (BitVec.eq_of_toNat_eq (by
      have : r.toNat ≠ 0 := fun h0 => hr (BitVec.eq_of_toNat_eq (by simpa [zeroReg] using h0))
      have : q.toNat ≠ 0 := fun h0 => hq (BitVec.eq_of_toNat_eq (by simpa [zeroReg] using h0))
      omega))
    simp [State.writeReg, State.readReg, hq, hq15, hr, hr15, hqr, hne]

/-- The pc after a register write (R12). -/
theorem State.writeReg_pc (s : State F Op) (r : RegIdx) (v : Word) :
    (s.writeReg r v).pc = if r = pcReg then v else s.pc := by
  have h := State.readReg_writeReg s r pcReg v
  rw [State.readReg_pcReg, State.readReg_pcReg] at h
  simpa [show ¬pcReg = zeroReg by decide, eq_comm] using h

/-- Register 0 reads 0 (R11). -/
@[simp] theorem State.readReg_zero (s : State F Op) : s.readReg 0#4 = 0#32 := s.readReg_zeroReg
/-- A write to register 0 is discarded (R11). -/
@[simp] theorem State.writeReg_zero (s : State F Op) (v : Word) : s.writeReg 0#4 v = s := s.writeReg_zeroReg v
/-- Register 15 is the pc (R12). -/
@[simp] theorem State.readReg_fifteen (s : State F Op) : s.readReg 15#4 = s.pc := s.readReg_pcReg
/-- A write to register 15 sets the pc (R12). -/
@[simp] theorem State.writeReg_fifteen (s : State F Op) (v : Word) : s.writeReg 15#4 v = { s with pc := v } :=
  s.writeReg_pcReg v

/-- `readReg_writeReg` with register 0 as a numeral. -/
theorem State.readReg_writeReg_num (s : State F Op) (r q : RegIdx) (v : Word) :
    (s.writeReg r v).readReg q = if q = 0#4 then 0#32 else if q = r then v else s.readReg q :=
  s.readReg_writeReg r q v

/-- `writeReg_pc` with register 15 as a numeral. -/
theorem State.writeReg_pc_num (s : State F Op) (r : RegIdx) (v : Word) :
    (s.writeReg r v).pc = if r = 15#4 then v else s.pc := s.writeReg_pc r v

@[simp] theorem State.readReg_setCond (s : State F Op) (c : F) (r : RegIdx) :
    (s.setCond c).readReg r = s.readReg r := rfl
@[simp] theorem State.readReg_setMem (s : State F Op) (m : Memory) (r : RegIdx) :
    (s.setMem m).readReg r = s.readReg r := rfl
@[simp] theorem State.readReg_notify (s : State F Op) (w : Word) (d : Decoded F Op) (r : RegIdx) :
    (s.notify w d).readReg r = s.readReg r := rfl
@[simp] theorem State.readReg_commitHalt (s : State F Op) (r : RegIdx) :
    s.commitHalt.readReg r = s.readReg r := rfl
@[simp] theorem State.readReg_latch (s : State F Op) (f : Failure) (r : RegIdx) :
    (s.latch f).readReg r = s.readReg r := rfl

/-- After the pc advance every other register reads as before (R120). -/
theorem State.readReg_advancePc (s : State F Op) (r : RegIdx) :
    s.advancePc.readReg r = if r = pcReg then s.pc + pcStep else s.readReg r := by
  by_cases hr : r = pcReg
  · subst hr; simp [State.readReg_pcReg]
  · rw [if_neg hr]
    exact State.readReg_congr_gpr rfl hr

/-- `readReg_advancePc` with register 15 as a numeral. -/
theorem State.readReg_advancePc_num (s : State F Op) (r : RegIdx) :
    s.advancePc.readReg r = if r = 15#4 then s.pc + 1#32 else s.readReg r := s.readReg_advancePc r

/-- A register write neither reads nor changes the memory. -/
theorem State.writeReg_withMem (s : State F Op) (m : Memory) (r : RegIdx) (v : Word) :
    ({ s with mem := m } : State F Op).writeReg r v = { s.writeReg r v with mem := m } := by
  simp only [State.writeReg]; split <;> [rfl; (split <;> rfl)]

/-- A register write neither reads nor changes the outputs. -/
theorem State.writeReg_withOutputs (s : State F Op) (tr : List (Event F Op)) (ls : List Nat) (r : RegIdx) (v : Word) :
    ({ s with trace := tr, listeners := ls } : State F Op).writeReg r v =
      { s.writeReg r v with trace := tr, listeners := ls } := by
  simp only [State.writeReg]; split <;> [rfl; (split <;> rfl)]

end Sys2Proof.Machine
end

