-- ==== Sys2Proof/Laws/Sequencer.lean ====
section
/-! SUPPORT. Everything a cycle and a step can do, said once: the lemmas that later proofs cite instead of
unfolding `cycle`, `exec` or `step`. -/

namespace Sys2Proof.Machine

variable {I F Op : Type}

theorem FlagSet.passes_iff (fl : FlagSet) (nv c m : fl.Flag) : fl.passes nv c m = true ↔ fl.both c m ≠ nv := by
  simp [FlagSet.passes]

theorem State.executes_iff (s : State) (f : Fields) : s.executes f = true ↔ s.cond &&& f.cond ≠ never :=
  specFlags.passes_iff never s.cond f.cond

/-! The operands (R119) and what the ALU gives on them, in the registers they read. -/

@[simp] theorem State.left_eq (s : State F Op) (a : RegIdx) : s.left a = s.readReg a := rfl
@[simp] theorem State.right_eq (s : State F Op) (b : RegIdx) (k : Int) : s.right b k = s.readReg b + word k := rfl
@[simp] theorem leftOperand_eq (f : Fields) (s : State) : leftOperand f s = s.readReg f.src1 := rfl
@[simp] theorem rightOperand_eq (f : Fields) (s : State) :
    rightOperand f s = s.readReg f.src2 + word f.offset := rfl
theorem aluResult_eq (alu : Alu) (op : Opcode) (f : Fields) (s : State) :
    aluResult alu op f s = (alu op (s.readReg f.src1) (s.readReg f.src2 + word f.offset)).1 := rfl
theorem aluFlags_eq (alu : Alu) (op : Opcode) (f : Fields) (s : State) :
    aluFlags alu op f s = (alu op (s.readReg f.src1) (s.readReg f.src2 + word f.offset)).2 := rfl

theorem cycle_skipped {alu : Alu} {op : Opcode} {f : Fields} {s : State} (h : s.executes f = false) :
    cycle alu op f s = .next s.advancePc := by
  simp [cycle, h]

theorem cycle_executed {alu : Alu} {op : Opcode} {f : Fields} {s : State} (h : s.executes f = true) :
    cycle alu op f s =
      commitAs op.kind f.target (aluResult alu op f s) (s.advancePc.setCond (aluFlags alu op f s)) := by
  rw [cycle, if_pos h]; rfl

/-- Each instruction runs the shared cycle under the default ALU. -/
theorem exec_is_cycle (i : Instr) (s : State) : exec i s = cycle defaultAlu i.op i.fields s := by
  cases i <;> rfl

/-- The states sub-step 7 can end in (R122): one action, by the class of the opcode alone. -/
theorem commitAs_cases (k : CommitKind) (t : RegIdx) (r : Word) (s : State F Op) :
    (k = .load ∧ s.mem.accepts r = true ∧ commitAs k t r s = .next (s.writeReg t (s.mem.wordAt r.toNat))) ∨
    (k = .store ∧ s.mem.accepts r = true ∧
      commitAs k t r s = .next (s.setMem (s.mem.place r (s.readReg t)))) ∨
    ((k = .load ∨ k = .store) ∧ s.mem.accepts r = false ∧ commitAs k t r s = raise (.memoryFault r) s) ∨
    (k = .halt ∧ commitAs k t r s = .next s.commitHalt) ∨
    (k = .other ∧ commitAs k t r s = .next (s.writeReg t r)) := by
  cases k <;> simp only [commitAs, reduceCtorEq, false_and, true_and, false_or, or_false, or_true]
  · rcases s.mem.read_cases r with ⟨ha, hr⟩ | ⟨ha, hr⟩ <;> simp [ha, hr]
  · rcases s.mem.write_cases r (s.readReg t) with ⟨ha, hr⟩ | ⟨ha, hr⟩ <;> simp [ha, hr]

/-- The class of an opcode, and the opcodes of a class (R62). -/
theorem Opcode.kind_load {op : Opcode} : op.kind = .load ↔ op = .load := by cases op <;> decide
theorem Opcode.kind_store {op : Opcode} : op.kind = .store ↔ op = .store := by cases op <;> decide
theorem Opcode.kind_halt {op : Opcode} : op.kind = .halt ↔ op = .halt := by cases op <;> decide
theorem Opcode.kind_other {op : Opcode} :
    op.kind = .other ↔ op = .add ∨ op = .sub ∨ op = .mul ∨ op = .div := by cases op <;> decide

/-- `commitAs_cases` for the opcodes of the spec. -/
theorem commit_cases (op : Opcode) (t : RegIdx) (r : Word) (s : State F Op) :
    (op = .load ∧ s.mem.accepts r = true ∧
      commitAs op.kind t r s = .next (s.writeReg t (s.mem.wordAt r.toNat))) ∨
    (op = .store ∧ s.mem.accepts r = true ∧
      commitAs op.kind t r s = .next (s.setMem (s.mem.place r (s.readReg t)))) ∨
    ((op = .load ∨ op = .store) ∧ s.mem.accepts r = false ∧
      commitAs op.kind t r s = raise (.memoryFault r) s) ∨
    (op = .halt ∧ commitAs op.kind t r s = .next s.commitHalt) ∨
    ((op = .add ∨ op = .sub ∨ op = .mul ∨ op = .div) ∧ commitAs op.kind t r s = .next (s.writeReg t r)) := by
  have h := commitAs_cases op.kind t r s
  rwa [Opcode.kind_load, Opcode.kind_store, Opcode.kind_halt, Opcode.kind_other] at h

/-- Everything an instruction can do (R112, R117 to R126): it is skipped, or it commits in one of these ways. -/
theorem exec_cases (i : Instr) (s : State) :
    (s.executes i.fields = false ∧ exec i s = .next s.advancePc) ∨
    (s.executes i.fields = true ∧
      let u := s.advancePc.setCond (aluFlags defaultAlu i.op i.fields s)
      let r := aluResult defaultAlu i.op i.fields s
      ((i.op = .load ∧ s.mem.accepts r = true ∧
          exec i s = .next (u.writeReg i.fields.target (s.mem.wordAt r.toNat))) ∨
        (i.op = .store ∧ s.mem.accepts r = true ∧
          exec i s = .next (u.setMem (s.mem.place r (s.advancePc.readReg i.fields.target)))) ∨
        ((i.op = .load ∨ i.op = .store) ∧ s.mem.accepts r = false ∧ exec i s = raise (.memoryFault r) u) ∨
        (i.op = .halt ∧ exec i s = .next u.commitHalt) ∨
        ((i.op = .add ∨ i.op = .sub ∨ i.op = .mul ∨ i.op = .div) ∧
          exec i s = .next (u.writeReg i.fields.target r)))) := by
  rw [exec_is_cycle]
  cases h : s.executes i.fields
  · exact .inl ⟨rfl, cycle_skipped h⟩
  · refine .inr ⟨rfl, ?_⟩
    intro u r
    rw [cycle_executed h]
    exact commit_cases i.op i.fields.target r u

section
variable {dec : Word → Except Failure I} {record : I → Decoded F Op} {run : I → State F Op → Result F Op}
  {s : State F Op}

/-- A step is performed only while Running (R130). -/
theorem stepOf_stopped (hr : s.isRunning = false) : stepOf dec record run s = .fault .notRunning := by
  simp [stepOf, hr]

/-- A step whose fetch fails changes nothing and raises (R113, R168). -/
theorem stepOf_unfetched {e : Failure} (hr : s.isRunning = true) (hf : s.fetch = .error e) :
    stepOf dec record run s = raise e s := by
  simp [stepOf, hr, hf]

/-- A step whose decode fails changes nothing and raises (R114, R168). -/
theorem stepOf_undecoded {w : Word} {e : Failure} (hr : s.isRunning = true) (hf : s.fetch = .ok w)
    (hd : dec w = .error e) : stepOf dec record run s = raise e s := by
  simp [stepOf, hr, hf, hd]

/-- A step while Running, once its word is fetched and decoded, is the instruction after its event. -/
theorem stepOf_decoded {w : Word} {i : I} (hr : s.isRunning = true) (hf : s.fetch = .ok w) (hd : dec w = .ok i) :
    stepOf dec record run s = run i (s.notify w (record i)) := by
  simp [stepOf, hr, hf, hd]

/-- Every way a step can end, for any decoder and any meaning of the instruction (R111, R112, R160). -/
theorem stepOf_cases (dec : Word → Except Failure I) (record : I → Decoded F Op)
    (run : I → State F Op → Result F Op) (s : State F Op) :
    (s.isRunning = false ∧ stepOf dec record run s = .fault .notRunning) ∨
    (s.isRunning = true ∧ ∃ e, s.fetch = .error e ∧ stepOf dec record run s = raise e s) ∨
    (s.isRunning = true ∧ ∃ w e, s.fetch = .ok w ∧ dec w = .error e ∧ stepOf dec record run s = raise e s) ∨
    (s.isRunning = true ∧ ∃ w i, s.fetch = .ok w ∧ dec w = .ok i ∧
      stepOf dec record run s = run i (s.notify w (record i))) := by
  cases hr : s.isRunning
  · exact .inl ⟨rfl, stepOf_stopped hr⟩
  · refine .inr ?_
    cases hf : s.fetch with
    | error e => exact .inl ⟨rfl, e, rfl, stepOf_unfetched hr hf⟩
    | ok w => cases hd : dec w with
      | error e => exact .inr (.inl ⟨rfl, w, e, rfl, hd, stepOf_undecoded hr hf hd⟩)
      | ok i => exact .inr (.inr ⟨rfl, w, i, rfl, hd, stepOf_decoded hr hf hd⟩)

end

/-- A step while Running, once its word is fetched and decoded, is the instruction after its event. -/
theorem step_decoded {s : State} {w : Word} {i : Instr} (hr : s.isRunning = true) (hf : s.fetch = .ok w)
    (hd : decode w = .ok i) : step s = exec i (s.notify w i.record) := stepOf_decoded hr hf hd

/-- Every way a step can end (R111, R112, R160). -/
theorem step_cases (s : State) :
    (s.isRunning = false ∧ step s = .fault .notRunning) ∨
    (s.isRunning = true ∧ ∃ e, s.fetch = .error e ∧ step s = raise e s) ∨
    (s.isRunning = true ∧ ∃ w e, s.fetch = .ok w ∧ decode w = .error e ∧ step s = raise e s) ∨
    (s.isRunning = true ∧ ∃ w i, s.fetch = .ok w ∧ decode w = .ok i ∧ step s = exec i (s.notify w i.record)) :=
  stepOf_cases decode Instr.record exec s

/-- Everything a step that answers a next state has done (R112). -/
theorem step_next {s t : State} (h : step s = .next t) :
    s.isRunning = true ∧ ∃ w i, s.fetch = .ok w ∧ decode w = .ok i ∧ exec i (s.notify w i.record) = .next t := by
  rcases step_cases s with ⟨_, h'⟩ | ⟨_, e, _, h'⟩ | ⟨_, w, e, _, _, h'⟩ | ⟨hr, w, i, hf, hd, h'⟩
  · rw [h'] at h; cases h
  · rw [h'] at h; cases h
  · rw [h'] at h; cases h
  · exact ⟨hr, w, i, hf, hd, h' ▸ h⟩

/-- The two ways a step leaves a state behind: its fetch or decode fails, or its instruction is run (R112,
R168). -/
theorem step_leaves {s t : State} (h : leaves (step s) t) :
    s.isRunning = true ∧
    ((∃ e, (s.fetch = .error e ∨ ∃ w, s.fetch = .ok w ∧ decode w = .error e) ∧
        step s = raise e s ∧ t = s.latch e) ∨
      ∃ w i, s.fetch = .ok w ∧ decode w = .ok i ∧ step s = exec i (s.notify w i.record) ∧
        leaves (exec i (s.notify w i.record)) t) := by
  rcases step_cases s with ⟨_, h'⟩ | ⟨hr, e, hf, h'⟩ | ⟨hr, w, e, hf, hd, h'⟩ | ⟨hr, w, i, hf, hd, h'⟩
  · rw [h'] at h; rcases h with h | ⟨_, h⟩ <;> cases h
  · refine ⟨hr, .inl ⟨e, .inl hf, h', ?_⟩⟩
    rw [h'] at h; rcases h with h | ⟨_, h⟩ <;> cases h; rfl
  · refine ⟨hr, .inl ⟨e, .inr ⟨w, hf, hd⟩, h', ?_⟩⟩
    rw [h'] at h; rcases h with h | ⟨_, h⟩ <;> cases h; rfl
  · exact ⟨hr, .inr ⟨w, i, hf, hd, h', h' ▸ h⟩⟩

/-! The machine under any parameters (R4). -/

/-- The selection of a register: an index from 0 to 15 names one, another none (R119, R166). -/
theorem selectReg_valid {k : Word} (h : k.toNat ≤ 15) : selectReg k = .ok (k.setWidth 4) := by
  simp [selectReg, h]
theorem selectReg_invalid {k : Word} (h : ¬k.toNat ≤ 15) : selectReg k = .error (.invalidRegisterIndex k) := by
  simp [selectReg, h]

/-- Everything the selection of the three registers of a record can answer. -/
theorem Decoded.select_eq (d : Decoded F Op) :
    d.select =
      if d.target.toNat ≤ 15 ∧ d.src1.toNat ≤ 15 ∧ d.src2.toNat ≤ 15 then
        .ok (d.target.setWidth 4, d.src1.setWidth 4, d.src2.setWidth 4)
      else .error (.invalidRegisterIndex
        (if 15 < d.target.toNat then d.target else if 15 < d.src1.toNat then d.src1 else d.src2)) := by
  unfold Decoded.select
  by_cases h1 : d.target.toNat ≤ 15 <;> by_cases h2 : d.src1.toNat ≤ 15 <;> by_cases h3 : d.src2.toNat ≤ 15 <;>
    simp [selectReg, h1, h2, h3, Nat.not_lt.2, Nat.lt_of_not_le]

/-- The register index of an instruction, as its record holds it, names that register. -/
theorem selectReg_record (r : RegIdx) : selectReg (r.setWidth 32) = .ok r := by revert r; decide

theorem record_select (i : Instr) :
    i.record.select = .ok (i.fields.target, i.fields.src1, i.fields.src2) := by
  simp only [Decoded.select, Instr.record, selectReg_record]

/-- A record that names registers 0 to 15 is that of the instruction it stands for. -/
theorem ofRecord_record {d : Decoded} (ht : d.target.toNat ≤ 15) (ha : d.src1.toNat ≤ 15)
    (hb : d.src2.toNat ≤ 15) : (Instr.ofRecord d).record = d := by
  have h : ∀ k : Word, k.toNat ≤ 15 → (k.setWidth 4).setWidth 32 = k := fun k hk => by
    apply BitVec.eq_of_toNat_eq
    simp only [BitVec.toNat_setWidth]
    omega
  obtain ⟨c, op, t, a, b, k⟩ := d
  cases op <;> simp only [Instr.ofRecord, Instr.ofFields, Instr.record, Instr.fields, Instr.op, h _ ht, h _ ha, h _ hb]

/-- A four-bit field holds no register index above 15 (R64). -/
theorem extract_four_bits (d : BitField) (w : Word) (h : d.mask >>> d.fromBit = 0xF#32) :
    (d.extract w).toNat ≤ 15 := by
  have e : d.extract w = (w >>> d.fromBit) &&& 0xF#32 := by
    rw [BitField.extract, BitVec.ushiftRight_and_distrib, h]
  rw [e, BitVec.toNat_and]
  exact Nat.and_le_right

/-- Under the spec's parameters the decoder of records and `decode` agree (R64, R66). -/
theorem decodeWith_spec (w : Word) :
    decodeWith specLayout specOpcodes specFlags w =
      match decode w with
      | .ok i => .ok i.record
      | .error e => .error e := by
  unfold decode
  unfold decodeWith
  cases specOpcodes.ofNumber (specLayout.op.extract w).toNat with
  | none => rfl
  | some op =>
    exact congrArg Except.ok (Eq.symm (ofRecord_record (d := recordWith specLayout specFlags op w)
      (extract_four_bits targetField w (by decide)) (extract_four_bits src1Field w (by decide))
      (extract_four_bits src2Field w (by decide))))

/-- A record under any parameters whose predicate does not pass (R118). -/
theorem execWith_skipped {p : Params} {d : Decoded p.flags.Flag p.opcodes.Op} {s : State p.flags.Flag p.opcodes.Op}
    (h : p.flags.passes p.never s.cond d.cond = false) : execWith p d s = .next s.advancePc := by
  rw [execWith, h]; rfl

/-- A record under any parameters that passes and names a register that does not exist (R166). -/
theorem execWith_unselected {p : Params} {d : Decoded p.flags.Flag p.opcodes.Op}
    {s : State p.flags.Flag p.opcodes.Op} {e : Failure}
    (h : p.flags.passes p.never s.cond d.cond = true) (hs : d.select = .error e) : execWith p d s = raise e s := by
  rw [execWith, h, hs]; rfl

/-- A record under any parameters that passes and names three registers (R119 to R122). -/
theorem execWith_selected {p : Params} {d : Decoded p.flags.Flag p.opcodes.Op}
    {s : State p.flags.Flag p.opcodes.Op} {t a b : RegIdx}
    (h : p.flags.passes p.never s.cond d.cond = true) (hs : d.select = .ok (t, a, b)) :
    execWith p d s = executed (p.opcodes.kind d.op) t (p.alu d.op (s.left a) (s.right b d.offset)) s := by
  rw [execWith, h, hs]; rfl

/-- Under the spec's parameters the record of an instruction runs as the instruction. -/
theorem execWith_spec (i : Instr) (s : State) : execWith Params.spec i.record s = exec i s := by
  rw [exec_is_cycle]
  cases h : s.executes i.fields
  · exact (execWith_skipped (p := Params.spec) (d := i.record) (s := s) h).trans (cycle_skipped h).symm
  · exact (execWith_selected (p := Params.spec) (d := i.record) (s := s) h (record_select i)).trans
      (cycle_executed h).symm

/-- Under the spec's parameters the step is `step`. -/
theorem stepWith_spec (s : State) : stepWith Params.spec s = step s := by
  rcases step_cases s with ⟨hr, h'⟩ | ⟨hr, e, hf, h'⟩ | ⟨hr, w, e, hf, hw, h'⟩ | ⟨hr, w, i, hf, hw, h'⟩
  · exact (stepOf_stopped hr).trans h'.symm
  · exact (stepOf_unfetched hr hf).trans h'.symm
  · exact (stepOf_undecoded hr hf ((decodeWith_spec w).trans (by rw [hw]))).trans h'.symm
  · exact (stepOf_decoded hr hf ((decodeWith_spec w).trans (by rw [hw]))).trans
      ((execWith_spec i _).trans h'.symm)

theorem runLoop_succ (n : Nat) (s : State) :
    runLoop (n + 1) s =
      if s.isRunning then
        match step s with
        | .next s' => runLoop n s'
        | .fault r => .fault r
        | .refused r => .refused r
      else .next s := by
  unfold runLoop; rw [runLoopOf]; cases step s <;> rfl

end Sys2Proof.Machine
end

