-- ==== Sys2Proof/Laws/Collaborators.lean ====
section
/-! SUPPORT. What the decoder, the default ALU and the host's actions can answer, one lemma each, so that no later
proof unfolds the functions that take the parameters. -/

namespace Sys2Proof.Machine

/-! The decoder (R66, R68). -/

/-- The only failure of the decoder, under any parameters. -/
theorem decodeWith_error {l : Layout} {ops : OpcodeSet} {fl : FlagSet} {w : Word} {e : Failure}
    (h : decodeWith l ops fl w = .error e) : e = .invalidOpcode w ∧ ops.ofNumber (l.op.extract w).toNat = none := by
  unfold decodeWith at h
  split at h <;> cases h
  exact ⟨rfl, ‹_›⟩

/-- Everything the decoder reads, under any parameters (R66). -/
theorem decodeWith_ok {l : Layout} {ops : OpcodeSet} {fl : FlagSet} {w : Word} {d : Decoded fl.Flag ops.Op}
    (h : decodeWith l ops fl w = .ok d) :
    ops.number d.op = (l.op.extract w).toNat ∧ d = recordWith l fl d.op w := by
  unfold decodeWith at h
  split at h
  · cases h
  · cases h
    exact ⟨ops.agree _ _ ‹_›, rfl⟩

/-- Decoding, by the opcode number in the op field. -/
theorem decode_eq (w : Word) :
    decode w =
      match Opcode.ofNumber (opField.extract w).toNat with
      | none => .error (.invalidOpcode w)
      | some op => .ok (Instr.ofFields op
          { cond := (condField.extract w).setWidth 4
            target := (targetField.extract w).setWidth 4
            src1 := (src1Field.extract w).setWidth 4
            src2 := (src2Field.extract w).setWidth 4
            offset := offsetField.extractSigned w }) := by
  rw [decode, decodeWith]
  have e : specOpcodes.ofNumber (specLayout.op.extract w).toNat = Opcode.ofNumber (opField.extract w).toNat := rfl
  rw [e]
  cases Opcode.ofNumber (opField.extract w).toNat <;> rfl

theorem decode_error {w : Word} {e : Failure} (h : decode w = .error e) : e = .invalidOpcode w := by
  rw [decode_eq] at h
  split at h <;> cases h
  rfl

/-! The default ALU (R141, R142), its flags as `ruleFlags` words them. -/

theorem flagsOf_spec (r : Word) : flagsOf specFlagNames r = ruleFlags r := by
  have h : signed r < 0 ↔ r.getLsbD 31 = true := by
    rw [← BitVec.msb_eq_getLsbD_last, BitVec.msb_eq_toInt]; simp
  simp only [flagsOf, ruleFlags, h]
  rfl

@[simp] theorem defaultAlu_add (l r : Word) : defaultAlu .add l r = (l + r, ruleFlags (l + r)) :=
  Prod.ext rfl (flagsOf_spec _)
@[simp] theorem defaultAlu_load (l r : Word) : defaultAlu .load l r = (l + r, ruleFlags (l + r)) :=
  Prod.ext rfl (flagsOf_spec _)
@[simp] theorem defaultAlu_store (l r : Word) : defaultAlu .store l r = (l + r, ruleFlags (l + r)) :=
  Prod.ext rfl (flagsOf_spec _)
@[simp] theorem defaultAlu_sub (l r : Word) : defaultAlu .sub l r = (l - r, ruleFlags (l - r)) :=
  Prod.ext rfl (flagsOf_spec _)
@[simp] theorem defaultAlu_mul (l r : Word) : defaultAlu .mul l r = (l * r, ruleFlags (l * r)) :=
  Prod.ext rfl (flagsOf_spec _)
@[simp] theorem defaultAlu_halt (l r : Word) : defaultAlu .halt l r = (0, 2) := rfl
@[simp] theorem defaultAlu_div_zero (l : Word) : defaultAlu .div l 0#32 = (0, 8) := rfl
theorem defaultAlu_div {l r : Word} (h : r ≠ 0) :
    defaultAlu .div l r =
      (word (Int.fdiv (signed l) (signed r)), ruleFlags (word (Int.fdiv (signed l) (signed r)))) := by
  show aluQuotient specFlagNames l r = _
  rw [aluQuotient, if_neg h]
  exact Prod.ext rfl (flagsOf_spec _)

/-! The host's actions (R111, R195). -/

@[simp] theorem act_reset (s : State) : act .reset s = .next (hostReset s) := rfl
@[simp] theorem act_run (a : Word) (s : State) : act (.run a) s = hostRun a s := rfl
@[simp] theorem act_stop (s : State) : act .stop s = .next (hostStop s) := rfl
@[simp] theorem act_loadWord (a v : Word) (s : State) : act (.loadWord a v) s = hostLoadWord a v s := rfl
@[simp] theorem act_addListener (l : Nat) (s : State) : act (.addListener l) s = hostAddListener l s := rfl
@[simp] theorem act_removeListener (l : Nat) (s : State) : act (.removeListener l) s = hostRemoveListener l s := rfl
@[simp] theorem act_clock_false (s : State) : act (.clock false) s = .next s := rfl
@[simp] theorem act_clock_true (s : State) : act (.clock true) s = step s := rfl

/-- Everything an action that answers a next state has done (R111, R129, R195). -/
theorem act_next {a : HostAction} {s t : State} (h : act a s = .next t) :
    (a = .reset ∧ t = hostReset s) ∨
    (∃ f, a = .run f ∧ (s.running = true ∧ t = s ∨
      s.running = false ∧ s.fault = none ∧ t = { s with halted := false, pc := f, running := true })) ∨
    (a = .stop ∧ t = hostStop s) ∨
    (∃ b v, a = .loadWord b v ∧ s.running = false ∧ s.mem.accepts b = true ∧ t = s.setMem (s.mem.place b v)) ∨
    (∃ ls, s.running = false ∧ t = { s with listeners := ls } ∧
      (∃ l, a = .addListener l ∧ ls = s.listeners ++ [l] ∨ a = .removeListener l ∧ ls = s.listeners.erase l)) ∨
    (a = .clock false ∧ t = s) ∨ (a = .clock true ∧ step s = .next t) := by
  cases a with
  | reset => cases h; exact .inl ⟨rfl, rfl⟩
  | run f =>
    rw [act_run, hostRun] at h
    split at h
    · cases h; exact .inr (.inl ⟨f, rfl, .inl ⟨‹_›, rfl⟩⟩)
    · split at h
      · cases h
      · cases h
        exact .inr (.inl ⟨f, rfl, .inr ⟨by simpa using ‹¬s.running = true›, by
          simpa [Option.isSome_iff_ne_none] using ‹¬s.fault.isSome = true›, rfl⟩⟩)
  | stop => cases h; exact .inr (.inr (.inl ⟨rfl, rfl⟩))
  | loadWord b v =>
    rw [act_loadWord, hostLoadWord] at h
    split at h
    · cases h
    · rcases s.mem.write_cases b v with ⟨ha, hw⟩ | ⟨_, hw⟩ <;> rw [hw] at h <;> cases h
      exact .inr (.inr (.inr (.inl ⟨b, v, rfl, by simpa using ‹¬s.running = true›, ha, rfl⟩)))
  | addListener l =>
    rw [act_addListener, hostAddListener] at h
    split at h <;> cases h
    exact .inr (.inr (.inr (.inr (.inl ⟨_, by simpa using ‹¬s.running = true›, rfl, l, .inl ⟨rfl, rfl⟩⟩))))
  | removeListener l =>
    rw [act_removeListener, hostRemoveListener] at h
    split at h <;> cases h
    exact .inr (.inr (.inr (.inr (.inl ⟨_, by simpa using ‹¬s.running = true›, rfl, l, .inr ⟨rfl, rfl⟩⟩))))
  | clock en =>
    cases en
    · cases h; exact .inr (.inr (.inr (.inr (.inr (.inl ⟨rfl, rfl⟩)))))
    · exact .inr (.inr (.inr (.inr (.inr (.inr ⟨rfl, h⟩)))))

/-! The accesses of a step (R44), for any decoder and any data access. -/

section
variable {I F Op : Type} {dec : Word → Except Failure I} {access : I → State F Op → List MemAccess} {s : State F Op}

theorem stepAccessesOf_stopped (hr : s.isRunning = false) : stepAccessesOf dec access s = [] := by
  simp [stepAccessesOf, hr]

theorem stepAccessesOf_unfetched {e : Failure} (hr : s.isRunning = true) (hf : s.fetch = .error e) :
    stepAccessesOf dec access s = [.read s.pc] := by
  simp [stepAccessesOf, hr, hf]

theorem stepAccessesOf_undecoded {w : Word} {e : Failure} (hr : s.isRunning = true) (hf : s.fetch = .ok w)
    (hd : dec w = .error e) : stepAccessesOf dec access s = [.read s.pc] := by
  simp [stepAccessesOf, hr, hf, hd]

theorem stepAccessesOf_decoded {w : Word} {i : I} (hr : s.isRunning = true) (hf : s.fetch = .ok w)
    (hd : dec w = .ok i) : stepAccessesOf dec access s = .read s.pc :: access i s := by
  simp [stepAccessesOf, hr, hf, hd]

end

end Sys2Proof.Machine
end

