-- ==== Sys2Proof/Laws/PerInstr.lean ====
section
/-! SUPPORT. Statements for all instructions, one lemma per constructor. -/

namespace Sys2Proof

open Sys2Proof.Machine

/-- The family ReservedBit: an encoder writes 0 to bit 31 (spec/30_encoding.md R69). -/
def Laws.ReservedBit.Statement (i : Instr) : Prop := (encode i).getLsbD 31 = false

/-- The encoder leaves bit 31 as the Word 0 has it, whatever the record. -/
theorem encodeWith_reserved (d : Decoded) : (encodeWith specLayout specOpcodes specFlags d).getLsbD 31 = false := by
  have outside : ∀ (d : BitField) (v w : Word), d.mask.getLsbD 31 = false → w.getLsbD 31 = false →
      (d.insert v w).getLsbD 31 = false := fun d v w hm hw => by
    simp only [BitField.insert, BitVec.getLsbD_or, BitVec.getLsbD_and, hm, hw, Bool.and_false, Bool.false_and,
      Bool.or_false]
  unfold encodeWith
  refine outside _ _ _ (by decide) (outside _ _ _ (by decide) (outside _ _ _ (by decide)
    (outside _ _ _ (by decide) (outside _ _ _ (by decide) (outside _ _ _ (by decide) (by decide))))))

theorem Laws.ReservedBit.halt (f : Fields) : Laws.ReservedBit.Statement (.halt f) := encodeWith_reserved _
theorem Laws.ReservedBit.load (f : Fields) : Laws.ReservedBit.Statement (.load f) := encodeWith_reserved _
theorem Laws.ReservedBit.store (f : Fields) : Laws.ReservedBit.Statement (.store f) := encodeWith_reserved _
theorem Laws.ReservedBit.add (f : Fields) : Laws.ReservedBit.Statement (.add f) := encodeWith_reserved _
theorem Laws.ReservedBit.sub (f : Fields) : Laws.ReservedBit.Statement (.sub f) := encodeWith_reserved _
theorem Laws.ReservedBit.mul (f : Fields) : Laws.ReservedBit.Statement (.mul f) := encodeWith_reserved _
theorem Laws.ReservedBit.div (f : Fields) : Laws.ReservedBit.Statement (.div f) := encodeWith_reserved _

end Sys2Proof
end

