-- ==== Sys2Proof/Tests/Slice0.lean ====
section
/-! SUPPORT. Tests of the model, and witnesses that the hypotheses of the statements can be met. Expected
values are from the spec: spec/95_test_vectors.md (the vector's name stands in each test's comment) and the
tables of spec/30_encoding.md. -/

namespace Sys2Proof.Tests

open Sys2Proof Sys2Proof.Machine

/-! ## Ill-formed instructions are refused -/

theorem test_wf_accepts_offset_bounds :
    (Instr.add ⟨15, 1, 2, 3, 511⟩).wf ∧ (Instr.add ⟨15, 1, 2, 3, -512⟩).wf := by decide
theorem test_wf_refuses_offset_above : ¬(Instr.add ⟨15, 1, 2, 3, 512⟩).wf := by decide
theorem test_wf_refuses_offset_below : ¬(Instr.halt ⟨15, 0, 0, 0, -513⟩).wf := by decide

/-! ## Decoding: words written out from the table of R60 (v ooooo cccc tttt aaaa bbbb iiiiiiiiii) -/

/-- op 0, cond 15, r3, r1, r2, 5 (vector H2). -/
theorem test_decode_halt : decode 0b0_00000_1111_0011_0001_0010_0000000101 = .ok (.halt ⟨15, 3, 1, 2, 5⟩) := by
  decide
/-- op 1, cond 15, r2, r0, r15, 3 (vector L4). -/
theorem test_decode_load : decode 0b0_00001_1111_0010_0000_1111_0000000011 = .ok (.load ⟨15, 2, 0, 15, 3⟩) := by
  decide
/-- op 2, cond M, r1, r0, r0, 20 (vector K3). -/
theorem test_decode_store : decode 0b0_00010_0001_0001_0000_0000_0000010100 = .ok (.store ⟨1, 1, 0, 0, 20⟩) := by
  decide
/-- op 3, cond P, r15, r0, r15, -2 (program P2, address 4). -/
theorem test_decode_add : decode 0b0_00011_0100_1111_0000_1111_1111111110 = .ok (.add ⟨4, 15, 0, 15, -2⟩) := by
  decide
/-- op 5, cond 15, r3, r1, r2, 3 (vector B2). -/
theorem test_decode_sub : decode 0b0_00101_1111_0011_0001_0010_0000000011 = .ok (.sub ⟨15, 3, 1, 2, 3⟩) := by
  decide
/-- op 6, cond 15, r3, r1, r2, 0 (vector M1). -/
theorem test_decode_mul : decode 0b0_00110_1111_0011_0001_0010_0000000000 = .ok (.mul ⟨15, 3, 1, 2, 0⟩) := by
  decide
/-- op 7, cond 15, r3, r1, r2, -4 (vector V8). -/
theorem test_decode_div : decode 0b0_00111_1111_0011_0001_0010_1111111100 = .ok (.div ⟨15, 3, 1, 2, -4⟩) := by
  decide
/-- The words that fail to decode (section 3 of the vectors). -/
theorem test_decode_undefined :
    decode 0x20000000 = .error (.invalidOpcode 0x20000000) ∧
      decode 0x7C000000 = .error (.invalidOpcode 0x7C000000) ∧
      decode 0xFFFFFFFF = .error (.invalidOpcode 0xFFFFFFFF) := by decide
/-- Bit 31 is not read (section 3 of the vectors). -/
theorem test_decode_reserved_bit : decode 0x8C848C0F = .ok (.add ⟨2, 1, 2, 3, 15⟩) := by decide
/-- The encoder, on the extreme offsets (section 3 of the vectors). -/
theorem test_encode :
    encode (.sub ⟨3, 14, 13, 12, -512⟩) = 0x14FB7200 ∧ encode (.div ⟨0, 0, 0, 0, 511⟩) = 0x1C0001FF := by decide
/-- Rows of the opcode table, fields zero. -/
theorem test_table_words :
    decodeTableWord 32 0x14000000 = some (.sub ⟨0, 0, 0, 0, 0⟩) ∧ decodeTableWord 32 0x10000000 = none := by
  decide

/-! ## The codec (sections 2.1 to 2.4 of the vectors) -/

/-- The descriptor (0, 9). -/
def d09 : BitField := { fromBit := 0, toBit := 9, valid := by decide }
/-- The descriptor (4, 7). -/
def d47 : BitField := { fromBit := 4, toBit := 7, valid := by decide }
/-- The descriptor (31, 31). -/
def d31 : BitField := { fromBit := 31, toBit := 31, valid := by decide }
/-- The descriptor (0, 31). -/
def dAll : BitField := { fromBit := 0, toBit := 31, valid := by decide }

theorem test_construct_rejects :
    construct 5 2 = .error (.invalidRange 5 2) ∧ construct (-1) 3 = .error (.invalidRange (-1) 3) ∧
      construct 0 32 = .error (.invalidRange 0 32) ∧ construct 0 31 = .ok dAll := by decide
theorem test_constants :
    d47.mask = 0xF0 ∧ d47.maskComp = 0xFFFFFF0F ∧ d47.signBit = 0x8 ∧ dAll.mask = 0xFFFFFFFF ∧
      dAll.maskComp = 0 ∧ dAll.signBit = 0x80000000 ∧ dAll.comp = 0x100000000 := by decide
theorem test_extract :
    d47.extract 0xABCD1234 = 3 ∧ d09.extractSigned 0x0C4803FF = -1 ∧ d31.extractSigned 0x80000000 = -1 ∧
      dAll.extractSigned 0xDEADBEEF = -559038737 := by decide
theorem test_insert :
    d47.insert 0xA 0xFFFFFFFF = 0xFFFFFFAF ∧ d47.insert 0x1A 0 = 0xA0 ∧ d31.insert 2 0 = 0 ∧
      d09.insert 0xFFFFFFFE 0x0C480000 = 0x0C4803FE := by decide
theorem test_sign_extend :
    signExtend 7 3 = .ok (-1) ∧ signExtend 7 4 = .ok 7 ∧ signExtend 5 1 = .error (.invalidWidth 1) ∧
      signExtend 0x1F 4 = .ok 15 ∧ signExtend 0x80000000 33 = .ok 2147483648 := by decide

/-! ## Single steps (section 4 of the vectors): the word at address 7 of a memory of 64 words -/

/-- Registers written one after another. -/
def setRegs (s : State) : List (RegIdx × Word) → State
  | [] => s
  | (r, v) :: rest => setRegs (s.writeReg r v) rest

/-- Running, about to fetch `w` at address 7, with the flags and registers given and one more word placed. -/
def at7 (w : Word) (cond : Flags) (regs : List (RegIdx × Word)) (a v : Word) : State :=
  setRegs
    { State.reset with
      pc := 7
      cond := cond
      running := true
      mem := ({ words := 64, cells := [(7, w)] } : Memory).place a v }
    regs

/-- Whether an outcome is a next state that passes a check. -/
def nextOf {F Op : Type} (p : State F Op → Bool) : Result F Op → Bool
  | .next s => p s
  | .fault _ => false
  | .refused _ => false

/-- `nextOf` at the spec's `FLAGS` and `OPCODES`. -/
def nextWith (p : State → Bool) (r : Result) : Bool := nextOf p r

/-- Whether an outcome is a given failure in a state that passes a check. -/
def failsWith (f : Failure) (p : State → Bool) : Result → Bool
  | .next _ => false
  | .fault (.failure g s) => g = f && p s
  | .fault .notRunning => false
  | .refused _ => false

/-- Whether a host read answers a given value. -/
def hostReadIs (v : HostValue) : Host.Outcome HostValue Fault Refusal → Bool
  | .next u => u = v
  | .fault _ => false
  | .refused _ => false

/-- A2: no overflow flag. -/
theorem test_add_overflow :
    nextWith (fun s => s.readReg 2 == 0x80000000 && s.pc == 8 && s.cond == 1)
      (step (at7 0x0FC84001 4 [(1, 0x7FFFFFFF)] 20 0)) := by decide
/-- F5: bit 31 set; the event carries the raw word. -/
theorem test_add_event :
    nextWith (fun s => s.readReg 1 == 18 && s.cond == 4 &&
        s.trace == [{ pcAddr := 7, instrWord := 0x8C848C0F, instr := (Instr.add ⟨2, 1, 2, 3, 15⟩).record }])
      (step (at7 0x8C848C0F 2 [(2, 1), (3, 2)] 20 0)) := by decide
/-- B2: the offset is added to the second operand before the subtraction. -/
theorem test_sub_offset :
    nextWith (fun s => s.readReg 3 == 3 && s.pc == 8 && s.cond == 4)
      (step (at7 0x17CC4803 4 [(1, 10), (2, 4)] 20 0)) := by decide
/-- B3: the most negative number less one is positive. -/
theorem test_sub_wraps :
    nextWith (fun s => s.readReg 3 == 0x7FFFFFFF && s.cond == 4)
      (step (at7 0x17CC4001 4 [(1, 0x80000000)] 20 0)) := by decide
/-- M2: the high half of the product is lost. -/
theorem test_mul_high_half :
    nextWith (fun s => s.readReg 3 == 0 && s.pc == 8 && s.cond == 2)
      (step (at7 0x1BCC4800 4 [(1, 0x10000), (2, 0x10000), (3, 9)] 20 0)) := by decide
/-- M4: a negative operand. -/
theorem test_mul_negative :
    nextWith (fun s => s.readReg 3 == 0xFFFFFFF1 && s.cond == 1)
      (step (at7 0x1BCC4800 4 [(1, 0xFFFFFFFD), (2, 5)] 20 0)) := by decide
/-- V3: a negative divisor, rounded toward minus infinity. -/
theorem test_div_floor :
    nextWith (fun s => s.readReg 3 == 0xFFFFFFFC && s.pc == 8 && s.cond == 1)
      (step (at7 0x1FCC4800 4 [(1, 7), (2, 0xFFFFFFFE)] 20 0)) := by decide
/-- V8: the divisor is r2 + offset = 0. -/
theorem test_div_by_zero :
    nextWith (fun s => s.readReg 3 == 0 && s.pc == 8 && s.cond == 8)
      (step (at7 0x1FCC4BFC 4 [(1, 7), (2, 4), (3, 99)] 20 0)) := by decide
/-- L5: a LOAD into register 15 is an indirect jump. -/
theorem test_load_jump :
    nextWith (fun s => s.pc == 3 && s.cond == 4) (step (at7 0x07FC0016 4 [] 22 3)) := by decide
/-- L7: a failing LOAD has advanced the pc and replaced the flags. -/
theorem test_load_fault :
    failsWith (.memoryFault 100)
      (fun s => s.pc == 8 && s.cond == 4 && s.readReg 2 == 5 && !s.running && s.fault == some (.memoryFault 100))
      (step (at7 0x07C80064 2 [(2, 5)] 20 0)) := by decide
/-- T3: a stored register 15 is the next address. -/
theorem test_store_pc :
    nextWith (fun s => s.mem.wordAt 21 == 8 && s.pc == 8 && s.cond == 4) (step (at7 0x0BFC0015 4 [] 20 0)) := by
  decide
/-- T6: the address wraps below 0, the memory is unchanged. -/
theorem test_store_fault :
    failsWith (.memoryFault 0xFFFFFFFF)
      (fun s => s.pc == 8 && s.cond == 1 && s.mem == (at7 0x0BC403FF 4 [] 20 0).mem)
      (step (at7 0x0BC403FF 4 [(1, 42)] 20 0)) := by decide
/-- H2: the target is not written. -/
theorem test_halt :
    nextWith (fun s => s.halted && !s.running && s.pc == 8 && s.cond == 2 && s.readReg 3 == 3)
      (step (at7 0x03CC4805 4 [(1, 1), (2, 2), (3, 3)] 20 0)) := by decide
/-- K5: a skipped HALT does not halt, and emits its event. -/
theorem test_halt_skipped :
    nextWith (fun s => !s.halted && s.running && s.pc == 8 && s.cond == 4 && s.trace.length == 1)
      (step (at7 0x00800000 4 [] 20 0)) := by decide
/-- F2 and F4: decode and fetch failures change nothing and emit no event. -/
theorem test_fetch_decode_faults :
    failsWith (.invalidOpcode 0x7C000000) (fun s => s.pc == 7 && s.cond == 4 && s.trace.isEmpty && !s.running)
        (step (at7 0x7C000000 4 [] 20 0)) ∧
      failsWith (.memoryFault 64) (fun s => s.pc == 64 && s.trace.isEmpty)
        (step { at7 0 4 [] 20 0 with pc := 64 }) := by decide
/-- From reset nothing executes until a run begins (R190), and then the placed word is the instruction: K8. -/
theorem test_from_reset :
    nextWith (fun _ => true) (step State.reset) = false ∧
      nextWith (fun s => s.readReg 3 == 9 && s.pc == 1 && s.cond == 4)
        (step (State.reset.withFetchWord 32 0x0C4C0009)) := by decide
/-! ## Other parameters (R4) -/

/-- A layout whose target field has five bits, 21:17, and whose src1 field has the three bits 16:14. -/
def wideTarget : Params :=
  { Params.spec with
    layout := { specLayout with
      target := { fromBit := 17, toBit := 21, valid := by decide }
      src1 := { fromBit := 14, toBit := 16, valid := by decide } } }

/-- R166: register 24 does not exist; the event is emitted, the pc and the flags stay. A skipped one only advances
the pc (R118). -/
theorem test_register_index :
    failsWith (.invalidRegisterIndex 24) (fun s => s.pc == 7 && s.cond == 4 && s.trace.length == 1 && !s.running)
        (stepWith wideTarget (at7 0x0FF00000 4 [] 20 0)) ∧
      nextWith (fun s => s.pc == 8 && s.cond == 4) (stepWith wideTarget (at7 0x0CB00000 4 [] 20 0)) := by decide
/-- R140: another ALU, which answers the left operand and the flags V; R117: another sentinel, M, under which the
same word is skipped where the flags hold M. -/
theorem test_other_alu :
    nextWith (fun s => s.readReg 2 == 6 && s.cond == 8)
        (stepWith { Params.spec with alu := fun _ left _ => (left, flagV) } (at7 0x0FC84001 4 [(1, 6)] 20 0)) ∧
      nextWith (fun s => s.pc == 8 && s.readReg 2 == 0 && s.cond == 1)
        (stepWith { Params.spec with never := flagM } (at7 0x0FC84001 1 [(1, 6)] 20 0)) := by decide
/-- `FLAGS` of five bits in a predicate field of five, 26:22, below an op field of four, 30:27; and an eighth opcode,
`none`, of number 8, with the exclusive or and the fifth flag. -/
def fiveFlags : Params :=
  { layout := { specLayout with
      op := { fromBit := 27, toBit := 30, valid := by decide }
      cond := { fromBit := 22, toBit := 26, valid := by decide } }
    opcodes :=
      { Op := Option Opcode
        kind := fun op => match op with | none => .other | some o => o.kind
        ofNumber := fun n => if n = 8 then some none else (Opcode.ofNumber n).map some
        number := fun op => match op with | none => 8 | some o => o.number
        agree := fun n op h => by
          by_cases e : n = 8
          · rw [if_pos e] at h; cases h; exact e.symm
          · rw [if_neg e] at h
            obtain ⟨o, ho, rfl⟩ := Option.map_eq_some_iff.1 h
            exact specOpcodes.agree n o ho }
    flags :=
      { Flag := BitVec 5
        decEq := inferInstance
        both := fun a b => a &&& b
        ofField := fun w => w.setWidth 5
        toField := fun c => c.setWidth 32 }
    never := (0 : BitVec 5)
    alu := fun op left right =>
      match op with
      | none => (left ^^^ right, (16 : BitVec 5))
      | some o => ((defaultAlu o left right).1, (defaultAlu o left right).2.setWidth 5)
    memWords := 64
    condReset := (31 : BitVec 5)
    regReset := 7 }

/-- `fiveFlags` after its construction, with `w` placed at address 7 and run from there. -/
def fiveAt7 (w : Word) : State (BitVec 5) (Option Opcode) :=
  { fiveFlags.reset with
    pc := 7
    running := true
    mem := ({ words := 64, cells := [] } : Memory).place 7 w }

/-- The eighth opcode, on r2 = 7 and r0 + 3, with the fifth flag as its predicate and as its flag; its event port
`cond` has five bits. Reset leaves `REG_RESET` in r2 and 0 in r0. -/
theorem test_other_flags_and_opcodes :
    nextOf (F := BitVec 5) (Op := Option Opcode)
      (fun s => s.readReg 1 == 4 && s.readReg 2 == 7 && s.cond == 16 && s.pc == 8 &&
        s.trace.map (fun e => (eventPortsWith fiveFlags e).cond.toNat) == [16])
      (stepWith fiveFlags (fiveAt7 0b0_1000_10000_0001_0010_0000_0000000011)) := by decide
/-- R195: the registers are read while the run is held, and not while it goes on. -/
theorem test_host_read :
    hostReadIs (.word 6) (hostRead false (.reg 1) (at7 0 4 [(1, 6)] 20 0)) ∧
      hostReadIs (.word 6) (hostRead true (.reg 1) (at7 0 4 [(1, 6)] 20 0)) = false ∧
      hostReadIs (.flags 15) (hostRead true .cond State.reset) := by decide
/-- P7: `run` keeps the flags; R130: `run` with a latched fault is refused, a reset clears it. -/
theorem test_run :
    nextWith (fun s => s.pc == 8 && s.cond == 2 && s.running && !s.halted)
        (hostRun 8 { State.reset with cond := 2, halted := true, pc := 5 }) ∧
      nextWith (fun _ => true) (hostRun 8 (State.reset.latch (.memoryFault 1))) = false ∧
      nextWith (fun _ => true) (hostRun 8 (hostReset (State.reset.latch (.memoryFault 1)))) := by decide

end Sys2Proof.Tests
end

