-- ==== Sys2Proof/Tests/Witnesses.lean ====
section
/-! SUPPORT. For each statement of Certificates/Slice0/Obligations.lean that has hypotheses, one theorem
`witness_<Name>` that concrete states and operands meet them, at a boundary of each clause where it has one.
A statement not named here has no hypothesis. -/

namespace Sys2Proof.Tests

open Sys2Proof Sys2Proof.Machine

/-- Fields whose predicate is `ALWAYS`. -/
def fields (t a b : RegIdx) (k : Int) : Fields := { cond := 15, target := t, src1 := a, src2 := b, offset := k }

/-- Running at address 7 with the given word there, flags P, r1 = 42; 64 words of memory. -/
def running (w : Word) : State := at7 w 4 [(1, 42)] 20 9

/-- Idle, not halted, nothing latched, 64 words of memory. -/
def idle : State := { running 0 with running := false }

/-! ## The codec -/

theorem witness_ConstructAcceptsLegalRangesOnly :
    ((0 : Int) ≤ 0 ∧ (0 : Int) ≤ 0 ∧ (0 : Int) ≤ 31) ∧ ((0 : Int) ≤ 31 ∧ (31 : Int) ≤ 31) ∧
      ¬((0 : Int) ≤ 5 ∧ (5 : Int) ≤ 2 ∧ (2 : Int) ≤ 31) ∧ ¬((0 : Int) ≤ -1 ∧ (-1 : Int) ≤ 3 ∧ (3 : Int) ≤ 31) ∧
      ¬((0 : Int) ≤ 0 ∧ (0 : Int) ≤ 32 ∧ (32 : Int) ≤ 31) := by decide

/-- Two words that agree on bits 4 to 7 alone; the full descriptor; a one-bit descriptor at bit 31. -/
theorem witness_ExtractReadsTheField :
    (∀ k, d47.fromBit ≤ k → k ≤ d47.toBit → (0x00000030 : Word).getLsbD k = (0xABCD1234 : Word).getLsbD k) ∧
      (dAll.fromBit = 0 ∧ dAll.toBit = 31) ∧ d31.fromBit = d31.toBit := by
  refine ⟨fun k h1 h2 => ?_, by decide, by decide⟩
  have h : ∀ j : Fin 32, 4 ≤ j.val → j.val ≤ 7 →
      (0x00000030 : Word).getLsbD j = (0xABCD1234 : Word).getLsbD j := by decide
  exact h ⟨k, by have : d47.toBit = 7 := rfl; omega⟩ h1 h2

/-- Bits 4, 7 (in the field), 3, 8 (outside); two words that differ in the field alone; the full descriptor. -/
theorem witness_InsertWritesTheFieldOnly :
    (d47.fromBit ≤ 4 ∧ 4 ≤ d47.toBit) ∧ (d47.fromBit ≤ 7 ∧ 7 ≤ d47.toBit) ∧
      ¬(d47.fromBit ≤ 3 ∧ 3 ≤ d47.toBit) ∧ ¬(d47.fromBit ≤ 8 ∧ 8 ≤ d47.toBit) ∧
      (∀ k, ¬(d47.fromBit ≤ k ∧ k ≤ d47.toBit) → (0xFFFFFF0F : Word).getLsbD k = (0xFFFFFFFF : Word).getLsbD k) ∧
      (dAll.fromBit = 0 ∧ dAll.toBit = 31) := by
  refine ⟨by decide, by decide, by decide, by decide, fun k hk => ?_, by decide⟩
  by_cases h : k < 32
  · have hj : ∀ j : Fin 32, ¬(4 ≤ j.val ∧ j.val ≤ 7) →
        (0xFFFFFF0F : Word).getLsbD j = (0xFFFFFFFF : Word).getLsbD j := by decide
    exact hj ⟨k, h⟩ hk
  · rw [BitVec.getLsbD_of_ge _ _ (Nat.le_of_not_lt h), BitVec.getLsbD_of_ge _ _ (Nat.le_of_not_lt h)]

theorem witness_InsertThenExtractReturnsTheValue : (0xF : Word).toNat < 2 ^ d47.fieldWidth := by decide

/-- Neighbouring fields, on either side. -/
theorem witness_InsertIsLocalAndIdempotent :
    d47.toBit < (BitField.mk 8 9 (by decide)).fromBit ∧ (BitField.mk 0 3 (by decide)).toBit < d47.fromBit := by
  decide

theorem witness_SignedValuesSurviveInsertAndExtract :
    (-(2 ^ (d09.fieldWidth - 1) : Int) ≤ -512 ∧ (-512 : Int) < 2 ^ (d09.fieldWidth - 1)) ∧
      (-(2 ^ (d09.fieldWidth - 1) : Int) ≤ 511 ∧ (511 : Int) < 2 ^ (d09.fieldWidth - 1)) := by decide

theorem witness_ExtractSignedIsTwosComplement :
    d31.fromBit = d31.toBit ∧ (dAll.fromBit = 0 ∧ dAll.toBit = 31) ∧
      2 ≤ (BitField.mk 0 1 (by decide)).fieldWidth ∧ d31.fieldWidth = 1 := by decide

theorem witness_SignExtendMeetsItsContract :
    (1 : Int) ≤ 1 ∧ (1 : Int) < 2 ∧ (2 ≤ 2 ∧ 2 ≤ 32 ∧ (3 : Word).toNat < 2 ^ 2) ∧
      (2 ≤ 32 ∧ 32 ≤ 32 ∧ (0xFFFFFFFF : Word).toNat < 2 ^ 32) ∧
      signExtend 0x3FF (10 : BitVec 6).toNat = .ok (-1) := by decide

theorem witness_SignExtendOutsideItsDomain :
    (2 ≤ 4 ∧ 4 ≤ 32 ∧ 2 ^ 4 ≤ (0x1F : Word).toNat ∧ (0x1F : Word).getLsbD (4 - 1) = true) ∧
      (2 ≤ 4 ∧ 4 ≤ 32 ∧ 2 ^ 4 ≤ (0x17 : Word).toNat ∧ (0x17 : Word).getLsbD (4 - 1) = false) ∧
      (2 ≤ 33 ∧ 33 ≤ 33) := by decide

theorem witness_CodecPortsCarryTheFunctions :
    (∃ d, construct (31 : BitVec 5).toNat (31 : BitVec 5).toNat = .ok d) ∧
      (4 : BitVec 5) < 5 ∧ ¬(5 : BitVec 5) < 5 ∧ (1 : BitVec 6) ≤ 1 ∧ ¬(2 : BitVec 6) ≤ 1 ∧
      signExtend 7 (3 : BitVec 6).toNat = .ok (-1) := ⟨⟨d31, by decide⟩, by decide⟩

/-! ## Encoding -/

theorem witness_DecodeEncodeRoundTrip :
    (Instr.sub ⟨3, 14, 13, 12, -512⟩).wf ∧ (Instr.halt ⟨0, 0, 0, 0, 511⟩).wf := by decide

theorem witness_EncodeDecodeRoundTrip : decode 0x8C848C0F = .ok (.add ⟨2, 1, 2, 3, 15⟩) := by decide

/-- The last defined opcode, and the undefined ones at the ends of their ranges. -/
theorem witness_UndefinedOpcodesAreRefused :
    ((0x1C000000 : Word).extractLsb' 26 5).toNat ∈ [0, 1, 2, 3, 5, 6, 7] ∧
      ((0x10000000 : Word).extractLsb' 26 5).toNat = 4 ∧ 8 ≤ ((0x20000000 : Word).extractLsb' 26 5).toNat ∧
      8 ≤ ((0x7C000000 : Word).extractLsb' 26 5).toNat := by decide

theorem witness_FieldsAreReadFromTheirBits : decode 0x14FB7200 = .ok (.sub ⟨3, 14, 13, 12, -512⟩) := by decide

theorem witness_ReservedBitDoesNotMatter :
    (∀ k, k < 31 → (0x8C848C0F : Word).getLsbD k = (0x0C848C0F : Word).getLsbD k) ∧
      decode 0x0C848C0F = .ok (.add ⟨2, 1, 2, 3, 15⟩) := by
  refine ⟨fun k hk => ?_, by decide⟩
  have h : ∀ j : Fin 31, (0x8C848C0F : Word).getLsbD j = (0x0C848C0F : Word).getLsbD j := by decide
  exact h ⟨k, hk⟩

/-! ## Registers -/

/-- Target 0, an arithmetic opcode, and a read and a write at the last word that exists and at the first that does
not. -/
theorem witness_RegisterZeroIsFixed :
    (fields 0 1 0 21).target = 0 ∧ (running 0).cond &&& (fields 0 1 0 21).cond ≠ 0 ∧
      Opcode.div ∈ [Opcode.add, .sub, .mul, .div] ∧
      (∃ m, (running 0).mem.read (aluResult defaultAlu .load (fields 0 1 0 21) (running 0)) = .ok m) ∧
      (∃ m, (running 0).mem.write (aluResult defaultAlu .store (fields 0 1 0 21) (running 0)) 0 = .ok m) ∧
      (running 0).mem.read (aluResult defaultAlu .load (fields 0 1 0 22) (running 0)) = .error (.memoryFault 64) ∧
      (running 0).mem.write (aluResult defaultAlu .store (fields 0 1 0 22) (running 0)) 0 =
        .error (.memoryFault 64) :=
  ⟨by decide, by decide, by decide, ⟨_, rfl⟩, ⟨_, rfl⟩, by decide, by decide⟩

theorem witness_RegisterFifteenIsThePc :
    (fields 15 15 15 49).src1 = 15 ∧ (fields 15 15 15 49).src2 = 15 ∧ (fields 15 15 15 49).target = 15 ∧
      (running 0).cond &&& (fields 15 15 15 49).cond ≠ 0 ∧
      ∃ m, (running 0).mem.write (aluResult defaultAlu .store (fields 15 15 15 49) (running 0)) 8 = .ok m :=
  ⟨by decide, by decide, by decide, by decide, _, rfl⟩

/-! ## The sequencer -/

theorem witness_StepRunsTheDecodedInstruction :
    (running 0x0BC40014).running = true ∧ (running 0x0BC40014).halted = false ∧
      (running 0x0BC40014).mem.read (running 0x0BC40014).pc = .ok 0x0BC40014 ∧
      decode 0x0BC40014 = .ok (.store (fields 1 0 0 20)) := by decide

theorem witness_SkippedInstructionsOnlyAdvanceThePc :
    (running 0x00800000).running = true ∧ (running 0x00800000).halted = false ∧
      (running 0x00800000).mem.read (running 0x00800000).pc = .ok 0x00800000 ∧
      decode 0x00800000 = .ok (.halt ⟨2, 0, 0, 0, 0⟩) ∧ (running 0x00800000).cond &&& 2 = 0 := by decide

/-- The states with each single flag set. -/
def withFlag (c : Flags) : State := { running 0 with cond := c }

/-- The masks `NEVER` and `ALWAYS`; all flags set, and each flag alone; an instruction that passes and one that does
not. -/
theorem witness_MasksSelectByFlag :
    ((⟨0, 1, 0, 0, 0⟩ : Fields).cond = 0 ∧ (fields 1 0 0 0).cond = 15) ∧
      (legalCond (running 0).cond ∧ State.reset.cond = 15 ∧ legalCond State.reset.cond) ∧
      ((withFlag 1).cond = 1 ∧ (withFlag 2).cond = 2 ∧ (withFlag 4).cond = 4 ∧ (withFlag 8).cond = 8) ∧
      (running 0).executes (Instr.halt ⟨0, 0, 0, 0, 0⟩).fields = false ∧
      (running 0).executes (Instr.halt (fields 0 0 0 0)).fields = true ∧
      ∃ t, leaves (exec (.halt (fields 0 0 0 0)) (running 0)) t :=
  ⟨by decide, by decide, by decide, by decide, by decide, _, .inl rfl⟩

/-- A LOAD and a STORE that complete, and a LOAD that fails, with the target not 0. -/
theorem witness_ExecutedInstructionsReplaceTheFlags :
    (running 0).cond &&& (fields 2 1 0 21).cond ≠ 0 ∧ (fields 2 1 0 0).target ≠ 0 ∧
      (∃ t, cycle defaultAlu .load (fields 2 0 0 20) (running 0) = .next t) ∧
      (∃ t, cycle defaultAlu .store (fields 2 1 0 21) (running 0) = .next t) ∧
      (∃ t, cycle defaultAlu .load (fields 2 1 0 22) (running 0) = .fault (.failure (.memoryFault 64) t)) :=
  ⟨by decide, by decide, ⟨_, rfl⟩, ⟨_, rfl⟩, ⟨_, rfl⟩⟩

theorem witness_OtherOpcodesCommitTheResult :
    Opcode.add ∉ [Opcode.load, .store, .halt] ∧ (running 0).cond &&& (fields 15 0 15 2).cond ≠ 0 ∧
      (fields 15 0 15 2).target = 15 ∧ (fields 0 1 1 0).target = 0 := by decide

theorem witness_LoadCommitsTheWordRead :
    (running 0).cond &&& (fields 15 0 0 20).cond ≠ 0 ∧
      (running 0).mem.read (aluResult defaultAlu .load (fields 15 0 0 20) (running 0)) = .ok 9 ∧
      (fields 15 0 0 20).target = 15 ∧ (fields 0 0 0 20).target = 0 ∧
      (running 0).mem.read (aluResult defaultAlu .load (fields 2 1 0 22) (running 0)) =
        .error (.memoryFault 64) := by decide

theorem witness_StoreCommitsTheCurrentValue :
    (running 0).cond &&& (fields 15 1 0 21).cond ≠ 0 ∧
      (aluResult defaultAlu .store (fields 15 1 0 21) (running 0)).toNat < (running 0).mem.words ∧
      (running 0).mem.words ≤ (aluResult defaultAlu .store (fields 15 1 0 22) (running 0)).toNat := by decide

theorem witness_HaltSetsHaltedAndWritesNoRegister : (running 0).cond &&& (fields 15 0 0 0).cond ≠ 0 := by decide

/-- A Running state under given parameters whose word is decoded to a record that passes a test. -/
def decodes (p : Params) (s : State p.flags.Flag p.opcodes.Op) (w : Word)
    (q : Decoded p.flags.Flag p.opcodes.Op → Prop) : Prop :=
  s.running = true ∧ s.halted = false ∧ s.mem.read s.pc = .ok w ∧
    ∃ d, decodeWith p.layout p.opcodes p.flags w = .ok d ∧ q d

/-- Whether a record's predicate passes, and whether it names three registers. -/
def passesValid (p : Params) (s : State p.flags.Flag p.opcodes.Op) (valid : Bool)
    (d : Decoded p.flags.Flag p.opcodes.Op) : Prop :=
  p.flags.both s.cond d.cond ≠ p.never ∧
    ((d.target.toNat ≤ 15 ∧ d.src1.toNat ≤ 15 ∧ d.src2.toNat ≤ 15) ↔ valid = true)

/-- Under the spec's parameters a skipped word, an executed LOAD, STORE and HALT, a word of op 4; register 16 under a
layout with a target field of five bits; an opcode and a flag that the spec's parameters lack. -/
theorem witness_TheSequencerUnderAnyParameters :
    decodes Params.spec (running 0x00800000) 0x00800000
        (fun d => Params.spec.flags.both (running 0x00800000).cond d.cond = Params.spec.never) ∧
      decodes Params.spec (running 0x07C80014) 0x07C80014
        (fun d => passesValid Params.spec (running 0x07C80014) true d ∧ Params.spec.opcodes.kind d.op = .load) ∧
      decodes Params.spec (running 0x0BC40014) 0x0BC40014
        (fun d => passesValid Params.spec (running 0x0BC40014) true d ∧ Params.spec.opcodes.kind d.op = .store) ∧
      decodes Params.spec (running 0x03C00000) 0x03C00000
        (fun d => passesValid Params.spec (running 0x03C00000) true d ∧ Params.spec.opcodes.kind d.op = .halt) ∧
      decodes wideTarget (running 0x0FE00000) 0x0FE00000 (passesValid wideTarget (running 0x0FE00000) false) ∧
      decodes fiveFlags (fiveAt7 0x44048003) 0x44048003
        (fun d => passesValid fiveFlags (fiveAt7 0x44048003) true d ∧ fiveFlags.opcodes.kind d.op = .other) ∧
      (∃ e, decodeWith Params.spec.layout Params.spec.opcodes Params.spec.flags 0x10000000 = .error e) :=
  ⟨⟨rfl, rfl, rfl, _, rfl, rfl⟩, ⟨rfl, rfl, rfl, _, rfl, ⟨(FlagSet.passes_iff _ _ _ _).1 rfl, by decide⟩, rfl⟩,
    ⟨rfl, rfl, rfl, _, rfl, ⟨(FlagSet.passes_iff _ _ _ _).1 rfl, by decide⟩, rfl⟩,
    ⟨rfl, rfl, rfl, _, rfl, ⟨(FlagSet.passes_iff _ _ _ _).1 rfl, by decide⟩, rfl⟩,
    ⟨rfl, rfl, rfl, _, rfl, (FlagSet.passes_iff _ _ _ _).1 rfl, by decide⟩,
    ⟨rfl, rfl, rfl, _, rfl, ⟨(FlagSet.passes_iff _ _ _ _).1 rfl, by decide⟩, rfl⟩, ⟨_, rfl⟩⟩

/-! ## The instructions -/

theorem witness_AddResult : (running 0).cond &&& (fields 15 1 15 (-512)).cond ≠ 0 := by decide
theorem witness_SubResult : (running 0).cond &&& (fields 0 0 1 511).cond ≠ 0 := by decide
theorem witness_MulResult : (running 0).cond &&& (fields 1 1 1 (-1)).cond ≠ 0 := by decide
/-- A divisor that is zero by its offset, and one that is not. -/
theorem witness_DivResult :
    (running 0).cond &&& (fields 3 1 1 (-42)).cond ≠ 0 ∧
      signed ((running 0).readReg 1 + word (-42)) = 0 ∧ signed ((running 0).readReg 1 + word (-43)) ≠ 0 := by
  decide
theorem witness_LoadResult :
    (running 0).cond &&& (fields 2 1 0 21).cond ≠ 0 ∧
      (BitVec.ofInt 32 (((running 0).readReg 1).toNat + ((running 0).readReg 0).toNat + 21)).toNat <
        (running 0).mem.words := by decide
theorem witness_StoreResult :
    (running 0).cond &&& (fields 15 1 0 21).cond ≠ 0 ∧
      (BitVec.ofInt 32 (((running 0).readReg 1).toNat + ((running 0).readReg 0).toNat + 21)).toNat <
        (running 0).mem.words := by decide
theorem witness_HaltResult : State.reset.cond &&& (fields 0 0 0 0).cond ≠ 0 := by decide
theorem witness_ExactlyOneFlagAfterExecution :
    (running 0).cond &&& (Instr.div (fields 3 1 0 0)).fields.cond ≠ 0 ∧
      ∃ t, leaves (exec (.div (fields 3 1 0 0)) (running 0)) t := ⟨by decide, _, .inl rfl⟩

/-! ## Frames -/

theorem witness_ArithmeticAndLoadFrame :
    (Instr.load (fields 2 0 0 20)).op ∈ [Opcode.add, .sub, .mul, .div, .load] ∧
      (∃ t, exec (.load (fields 2 0 0 20)) (running 0) = .next t) ∧
      (Instr.add (fields 2 0 0 20)).op ∈ [Opcode.add, .sub, .mul, .div, .load] ∧
      (∃ t, exec (.add (fields 2 0 0 20)) (running 0) = .next t) :=
  ⟨by decide, ⟨_, rfl⟩, by decide, ⟨_, rfl⟩⟩
/-- An executed STORE to the last word that exists, and a skipped one. -/
theorem witness_StoreFrame :
    (∃ t, exec (.store (fields 1 1 0 21)) (running 0) = .next t) ∧
      (∃ t, exec (.store ⟨2, 1, 0, 0, 20⟩) (running 0) = .next t) ∧ (running 0).cond &&& 2 = 0 ∧
      aluResult defaultAlu .store (fields 1 1 0 21) (running 0) = 63 ∧ (62 : Word) ≠ 63 :=
  ⟨⟨_, rfl⟩, ⟨_, rfl⟩, by decide, by decide, by decide⟩
theorem witness_HaltFrame :
    (∃ t, exec (.halt (fields 1 1 0 21)) (running 0) = .next t) ∧
      (∃ t, exec (.halt ⟨2, 1, 0, 0, 20⟩) (running 0) = .next t) ∧ (running 0).cond &&& 2 = 0 :=
  ⟨⟨_, rfl⟩, ⟨_, rfl⟩, by decide⟩

/-! ## Failures -/

/-- A fetch from the first address that does not exist; words with op 4 and op 8 under mask `NEVER`. -/
theorem witness_FetchAndDecodeFailures :
    let s : State := { running 0 with pc := 64 }
    (s.running = true ∧ s.halted = false ∧ s.mem.words ≤ s.pc.toNat) ∧
      ((running 0x10000000).mem.read (running 0x10000000).pc = .ok 0x10000000 ∧
        ((0x10000000 : Word).extractLsb' 26 5).toNat = 4) ∧
      ((running 0x20000000).mem.read (running 0x20000000).pc = .ok 0x20000000 ∧
        8 ≤ ((0x20000000 : Word).extractLsb' 26 5).toNat) := by decide
theorem witness_DataAccessFailures :
    (running 0).cond &&& (fields 2 1 0 22).cond ≠ 0 ∧
      (running 0).mem.words ≤
        (BitVec.ofInt 32 (((running 0).readReg 1).toNat + ((running 0).readReg 0).toNat + 22)).toNat := by decide

/-! ## Whole-machine rules -/

/-- A step that decodes and completes, one that decodes and fails, one that does not decode. -/
theorem witness_OneEventPerDecodedInstruction :
    (∃ t, leaves (step (running 0x0BC40014)) t) ∧ (∃ t, leaves (step (running 0x07C80064)) t) ∧
      (∃ t, leaves (step (running 0x10000000)) t) :=
  ⟨⟨_, .inl rfl⟩, ⟨_, .inr ⟨_, rfl⟩⟩, ⟨_, .inr ⟨_, rfl⟩⟩⟩
/-- A taken relative jump, and an indirect one. -/
theorem witness_ControlTransfersByRegisterFifteenOnly :
    (∃ t, step (running 0x0FFC3FFE) = .next t) ∧ (∃ t, step (running 0x07FC0014) = .next t) :=
  ⟨⟨_, rfl⟩, ⟨_, rfl⟩⟩
/-- A HALT that executes and one that is skipped; a reset, a run and a clock that change halted. -/
theorem witness_OnlyHaltSetsHalted :
    (∃ t, leaves (step (running 0x03C00000)) t ∧ t.halted = true) ∧
      (∃ t, leaves (step (running 0x00800000)) t ∧ t.halted = false) ∧
      (∃ t, act .reset { idle with halted := true } = .next t ∧ t.halted ≠ true) ∧
      (∃ t, act (.run 3) { idle with halted := true } = .next t ∧ t.halted ≠ true) ∧
      (∃ t, act (.clock true) (running 0x03C00000) = .next t ∧ t.halted ≠ (running 0x03C00000).halted) ∧
      (idle.running = false ∧ idle.fault = none) ∧ ({ idle with halted := true } : State).halted = true ∧
      (∃ t, (running 0x0FC40005).running = true ∧ (running 0x0FC40005).halted = false ∧
        step (running 0x0FC40005) = .next t) ∧
      (∃ r, (running 0x10000000).running = true ∧ (running 0x10000000).halted = false ∧
        step (running 0x10000000) = .fault r) :=
  ⟨⟨_, .inl rfl, rfl⟩, ⟨_, .inl rfl, rfl⟩, ⟨_, rfl, by decide⟩, ⟨_, rfl, by decide⟩, ⟨_, rfl, by decide⟩,
    by decide, rfl, ⟨_, rfl, rfl, rfl⟩, ⟨_, rfl, rfl, rfl⟩⟩
/-- Two flags values on which a predicate passes, two on which it fails, and steps and actions that change the
flags. -/
theorem witness_FlagsAreReadByThePredicateAlone :
    (∃ t, leaves (cycle defaultAlu .add (fields 1 0 0 5) (running 0)) t) ∧
      ((running 0).cond &&& 5 ≠ 0 ∧ (1 : Flags) &&& 5 ≠ 0) ∧ ((running 0).cond &&& 2 = 0 ∧ (1 : Flags) &&& 2 = 0) ∧
      (∃ t, leaves (step (running 0x03C00000)) t ∧ t.cond ≠ (running 0x03C00000).cond) ∧
      (∃ t, hostRun 3 idle = .next t) ∧
      (∃ t, act .reset idle = .next t ∧ t.cond ≠ idle.cond) ∧
      (∃ t, act (.clock true) (running 0x03C00000) = .next t ∧ t.cond ≠ (running 0x03C00000).cond) :=
  ⟨⟨_, .inl rfl⟩, by decide, by decide, ⟨_, .inl rfl, by decide⟩, ⟨_, rfl⟩, ⟨_, rfl, by decide⟩,
    ⟨_, rfl, by decide⟩⟩
/-- Another memory that answers the accesses of a STORE's step alike: it lacks the word at 20 that is written. -/
theorem witness_StepsReachMemoryInThreeWaysOnly :
    (running 0x0BC40014).running = true ∧ (running 0x0BC40014).halted = false ∧
      (running 0x0BC40014).mem.read (running 0x0BC40014).pc = .ok 0x0BC40014 ∧
      decode 0x0BC40014 = .ok (.store (fields 1 0 0 20)) ∧
      stepAccesses (running 0x0BC40014) = [.read 7, .write 20 42] ∧
      ({ words := 64, cells := [(7, 0x0BC40014)] } : Memory).read 7 = (running 0x0BC40014).mem.read 7 ∧
      ({ words := 64, cells := [(7, 0x0BC40014)] } : Memory).accepts 20 = (running 0x0BC40014).mem.accepts 20 := by
  decide
/-- `STORE r1,r0,r15[1]` writes the next instruction (vector T4). -/
theorem witness_StoresAreSeenByTheNextFetch :
    (running 0x0BC43C01).mem.read (running 0x0BC43C01).pc = .ok 0x0BC43C01 ∧
      decode 0x0BC43C01 = .ok (.store (fields 1 0 15 1)) ∧
      (running 0x0BC43C01).cond &&& (fields 1 0 15 1).cond ≠ 0 ∧
      (∃ t, step (running 0x0BC43C01) = .next t) ∧
      aluResult defaultAlu .store (fields 1 0 15 1) (running 0x0BC43C01) = (running 0x0BC43C01).pc + 1 :=
  ⟨by decide, by decide, by decide, ⟨_, rfl⟩, by decide⟩
theorem witness_LoadAfterStoreYieldsTheValue :
    (running 0).cond &&& (fields 1 0 0 20).cond ≠ 0 ∧
      (∃ t, exec (.store (fields 1 0 0 20)) (running 0) = .next t ∧ t.cond &&& (fields 2 0 0 20).cond ≠ 0 ∧
        aluResult defaultAlu .load (fields 2 0 0 20) t = aluResult defaultAlu .store (fields 1 0 0 20) (running 0)) ∧
      (fields 2 0 0 20).target ≠ 0 := ⟨by decide, ⟨_, rfl, by decide, by decide⟩, by decide⟩

/-! ## Reset, runs and the invariant -/

theorem witness_RunIsNotAReset : idle.running = false ∧ idle.fault = none := by decide
/-- Idle and Running; a latched fault; host accesses at the last word that exists and at the first that does not. -/
theorem witness_OperationsOutsideTheirState :
    idle.running = false ∧ (running 0).running = true ∧
      ((idle.latch (.memoryFault 64)).running = false ∧ (idle.latch (.memoryFault 64)).fault ≠ none) ∧
      (∃ m, idle.mem.write 63 5 = .ok m) ∧ idle.mem.write 64 5 = .error (.memoryFault 64) ∧
      (∃ w, idle.mem.read 63 = .ok w) ∧ idle.mem.read 64 = .error (.memoryFault 64) ∧
      (idle.running = false ∨ true = false) ∧ ((running 0).running = false ∨ false = false) :=
  ⟨by decide, by decide, by decide, ⟨_, rfl⟩, by decide, ⟨_, rfl⟩, by decide, .inl (by decide), .inr rfl⟩
theorem witness_LoadedWordRunsAfterRun :
    idle.running = false ∧ idle.fault = none ∧ (63 : Word).toNat < idle.mem.words ∧
      decode 0x03C00000 = .ok (.halt (fields 0 0 0 0)) := by decide

/-- The state about to execute a HALT, or any other word, meets the invariant. -/
theorem running_inv (w : Word) : (running w).Inv := by
  refine ⟨⟨?_, ?_⟩, by simp [running, at7, setRegs, State.reset], by simp [running, at7, setRegs, State.reset],
    by simp [running, at7, setRegs, State.reset], by simp [running, at7, setRegs, legalCond, flagP]⟩ <;>
  simp [running, at7, setRegs, Memory.place, placeCell]

theorem witness_RunsCompleteByHaltOnly :
    (running 0x03C00000).Inv ∧ (∃ t, step (running 0x03C00000) = .next t ∧ t.completed) ∧
      (running 0x0FC40005).Inv ∧ (∃ t, step (running 0x0FC40005) = .next t ∧ ¬t.completed) :=
  ⟨running_inv _, ⟨_, rfl, rfl, rfl, rfl⟩, running_inv _, ⟨_, rfl, fun h => by cases h.1⟩⟩
/-- A step that completes, one that fails, an action, and a memory in its canonical form. -/
theorem witness_StepsKeepTheInvariant :
    ((running 0x0BC40014).Inv ∧ ∃ t, step (running 0x0BC40014) = .next t) ∧
      ((running 0x10000000).Inv ∧ ∃ r t, step (running 0x10000000) = .fault (.failure r t)) ∧
      ((running 0).Inv ∧ ∃ t, act .stop (running 0) = .next t) ∧ ({ words := 1, cells := [(0, 9)] } : Memory).wf :=
  ⟨⟨running_inv _, _, rfl⟩, ⟨running_inv _, _, _, rfl⟩, ⟨running_inv _, _, rfl⟩, by simp, by simp⟩
/-- Constructed with a memory of one word that holds op 4, then run: reachable, and its step fails. -/
theorem witness_ReachableStatesMeetTheInvariant :
    ∃ s r t, Reachable s ∧ step s = .fault (.failure r t) := by
  refine ⟨{ hostConnect { words := 1, cells := [(0, 0x10000000)] } with running := true }, _, _,
    .act (.connected { words := 1, cells := [(0, 0x10000000)] } ?_) (.run 0) ?_, rfl⟩
  · exact ⟨by simp, by simp⟩
  · rfl

end Sys2Proof.Tests
end

section
/-! SUPPORT. What an outcome leaves behind: the states after sub-step 7, after a cycle and after a step, and the
flags and `halted` in them. -/

namespace Sys2Proof.Machine

@[simp] theorem leaves_next {s t : State} : leaves (.next s) t ↔ t = s := by
  simp [leaves, eq_comm]

@[simp] theorem leaves_raise {e : Failure} {s t : State} : leaves (raise e s) t ↔ t = s.latch e := by
  simp [leaves, raise, eq_comm]

/-- The state Running is the pair running = 1, halted = 0 (R19). -/
theorem State.isRunning_iff {s : State} : s.isRunning = true ↔ s.running = true ∧ s.halted = false := by
  simp [State.isRunning]

/-! The predicate check (R117), as the statements word it. -/

theorem State.executes_of_ne {s : State} {f : Fields} (h : s.cond &&& f.cond ≠ 0) : s.executes f = true :=
  (s.executes_iff f).2 h

theorem State.executes_of_eq {s : State} {f : Fields} (h : s.cond &&& f.cond = 0) : s.executes f = false :=
  Bool.eq_false_iff.2 fun he => (s.executes_iff f).1 he h

/-! Sub-step 7 (R122). -/

/-- Every state that sub-step 7 can leave, whether it completes or fails. -/
theorem commitAs_leaves {k : CommitKind} {r : RegIdx} {v : Word} {s t : State}
    (h : leaves (commitAs k r v s) t) :
    (k = .load ∧ s.mem.accepts v = true ∧ t = s.writeReg r (s.mem.wordAt v.toNat)) ∨
    (k = .store ∧ s.mem.accepts v = true ∧ t = s.setMem (s.mem.place v (s.readReg r))) ∨
    ((k = .load ∨ k = .store) ∧ s.mem.accepts v = false ∧ t = s.latch (.memoryFault v)) ∨
    (k = .halt ∧ t = s.commitHalt) ∨
    (k = .other ∧ t = s.writeReg r v) := by
  rcases commitAs_cases k r v s with ⟨hk, ha, hc⟩ | ⟨hk, ha, hc⟩ | ⟨hk, ha, hc⟩ | ⟨hk, hc⟩ | ⟨hk, hc⟩ <;>
    rw [hc] at h
  · exact .inl ⟨hk, ha, leaves_next.1 h⟩
  · exact .inr (.inl ⟨hk, ha, leaves_next.1 h⟩)
  · exact .inr (.inr (.inl ⟨hk, ha, leaves_raise.1 h⟩))
  · exact .inr (.inr (.inr (.inl ⟨hk, leaves_next.1 h⟩)))
  · exact .inr (.inr (.inr (.inr ⟨hk, leaves_next.1 h⟩)))

/-- No commit writes the flags (R17). -/
theorem commitAs_leaves_cond {k : CommitKind} {r : RegIdx} {v : Word} {s t : State}
    (h : leaves (commitAs k r v s) t) : t.cond = s.cond := by
  rcases commitAs_leaves h with ⟨_, _, rfl⟩ | ⟨_, _, rfl⟩ | ⟨_, _, rfl⟩ | ⟨_, rfl⟩ | ⟨_, rfl⟩ <;> simp

/-- The commit of a HALT is the only one that sets `halted`, and none clears it (R18). -/
theorem commitAs_leaves_halted {k : CommitKind} {r : RegIdx} {v : Word} {s t : State}
    (h : leaves (commitAs k r v s) t) : t.halted = true ↔ s.halted = true ∨ k = .halt := by
  rcases commitAs_leaves h with
    ⟨rfl, _, rfl⟩ | ⟨rfl, _, rfl⟩ | ⟨rfl | rfl, _, rfl⟩ | ⟨rfl, rfl⟩ | ⟨rfl, rfl⟩ <;> simp

section
variable {F Op : Type} {s : State F Op} {r : RegIdx} {v m : Word} {m' : Memory} {e : Failure}

theorem commitAs_load_ok (h : s.mem.read v = .ok m) : commitAs .load r v s = .next (s.writeReg r m) := by
  simp [commitAs, h]

theorem commitAs_load_error (h : s.mem.read v = .error e) : commitAs .load r v s = raise e s := by
  simp [commitAs, h]

theorem commitAs_store_ok (h : s.mem.write v (s.readReg r) = .ok m') :
    commitAs .store r v s = .next (s.setMem m') := by
  simp [commitAs, h]

theorem commitAs_store_error (h : s.mem.write v (s.readReg r) = .error e) :
    commitAs .store r v s = raise e s := by
  simp [commitAs, h]

end

/-- A word just written is what a read of its address answers (R43). -/
theorem Memory.read_of_write {m m' : Memory} {a v : Word} (h : m.write a v = .ok m') : m'.read a = .ok v := by
  rcases m.write_cases a v with ⟨ha, hw⟩ | ⟨_, hw⟩ <;> cases hw.symm.trans h
  simp [Memory.read, ha, Memory.wordAt_place]

/-! Sub-steps 3 to 7 (R112), for every ALU. -/

/-- A cycle leaves the flags the ALU gives where it executes, the old ones where it is skipped (R17, R118, R121). -/
theorem cycle_leaves_cond {alu : Alu} {op : Opcode} {f : Fields} {s t : State}
    (h : leaves (cycle alu op f s) t) :
    t.cond = if s.cond &&& f.cond = 0 then s.cond else aluFlags alu op f s := by
  split
  next hp =>
    rw [cycle_skipped (State.executes_of_eq hp), leaves_next] at h
    rw [h, State.advancePc_cond]
  next hp =>
    rw [cycle_executed (State.executes_of_ne hp)] at h
    rw [commitAs_leaves_cond h, State.setCond_cond]

/-- A cycle sets `halted` where it executes a HALT, and clears it nowhere (R18). -/
theorem cycle_leaves_halted {alu : Alu} {op : Opcode} {f : Fields} {s t : State}
    (h : leaves (cycle alu op f s) t) :
    t.halted = true ↔ s.halted = true ∨ op = .halt ∧ s.cond &&& f.cond ≠ 0 := by
  by_cases hp : s.cond &&& f.cond = 0
  · rw [cycle_skipped (State.executes_of_eq hp), leaves_next] at h
    simp [h, hp]
  · rw [cycle_executed (State.executes_of_ne hp)] at h
    rw [commitAs_leaves_halted h, Opcode.kind_halt, and_iff_left hp]
    rfl

/-- Sub-steps 4 to 7 do not read the flags: an executed cycle replaces whatever they were (R17, R121). -/
theorem cycle_withCond_executed {alu : Alu} {op : Opcode} {f : Fields} {s : State} {c : Flags}
    (hs : s.cond &&& f.cond ≠ 0) (hc : c &&& f.cond ≠ 0) :
    cycle alu op f { s with cond := c } = cycle alu op f s := by
  rw [cycle_executed (State.executes_of_ne hs), cycle_executed (State.executes_of_ne hc)]
  rfl

/-- A skipped cycle keeps whatever the flags were (R17, R118). -/
theorem cycle_withCond_skipped {alu : Alu} {op : Opcode} {f : Fields} {s : State} {c : Flags}
    (hs : s.cond &&& f.cond = 0) (hc : c &&& f.cond = 0) :
    cycle alu op f { s with cond := c } = mapState (fun t => { t with cond := c }) (cycle alu op f s) := by
  rw [cycle_skipped (State.executes_of_eq hs), cycle_skipped (State.executes_of_eq hc)]
  rfl

/-! One step (R112). -/

theorem op_eq_halt {i : Instr} : i.op = .halt ↔ ∃ f, i = .halt f := by
  cases i <;> simp [Instr.op]

/-- A step leaves `halted` at 1 exactly where it executes a HALT (R18). -/
theorem step_leaves_halted {s t : State} (h : leaves (step s) t) :
    t.halted = true ↔ ∃ w f, s.mem.read s.pc = .ok w ∧ decode w = .ok (.halt f) ∧ s.cond &&& f.cond ≠ 0 := by
  obtain ⟨hr, hends⟩ := step_leaves h
  obtain ⟨-, hh⟩ := State.isRunning_iff.1 hr
  rcases hends with ⟨e, hfail, -, rfl⟩ | ⟨w, i, hf, hd, -, hi⟩
  · rw [State.latch_halted, hh]
    refine iff_of_false Bool.false_ne_true ?_
    rintro ⟨w, f, hw, hd, -⟩
    rcases hfail with hf | ⟨w', hf, he⟩
    · cases hf.symm.trans hw
    · cases hf.symm.trans hw
      cases he.symm.trans hd
  · rw [exec_is_cycle] at hi
    rw [cycle_leaves_halted hi, State.notify_halted, hh, State.notify_cond, op_eq_halt]
    constructor
    · rintro (h | ⟨⟨f, rfl⟩, hp⟩)
      · cases h
      · exact ⟨w, f, hf, hd, hp⟩
    · rintro ⟨w', f, hw, hd', hp⟩
      cases hf.symm.trans hw
      cases hd.symm.trans hd'
      exact .inr ⟨⟨f, rfl⟩, hp⟩

/-- A step that leaves other flags has executed an instruction, and they are those of the ALU (R17, R121). -/
theorem step_leaves_cond {s t : State} (h : leaves (step s) t) (hne : t.cond ≠ s.cond) :
    ∃ w i, s.mem.read s.pc = .ok w ∧ decode w = .ok i ∧ s.cond &&& i.fields.cond ≠ 0 ∧
      t.cond = aluFlags defaultAlu i.op i.fields s := by
  obtain ⟨-, ⟨e, -, -, rfl⟩ | ⟨w, i, hf, hd, -, hi⟩⟩ := step_leaves h
  · exact absurd rfl hne
  · rw [exec_is_cycle] at hi
    have hc := cycle_leaves_cond hi
    rw [State.notify_cond] at hc
    split at hc
    next => exact absurd hc hne
    next hp => exact ⟨w, i, hf, hd, hp, hc⟩

/-! The host's actions (R111, R195) and the loop of `run` (R110). -/

/-- An action either is a reset, an accepted `run` or the clock of a step, or keeps the flags and `halted`. -/
theorem act_next_cond_halted {a : HostAction} {s t : State} (h : act a s = .next t) :
    (a = .reset ∧ t = hostReset s) ∨ (∃ b, a = .run b ∧ t.cond = s.cond ∧ t.halted = false) ∨
      (a = .clock true ∧ step s = .next t) ∨ (t.cond = s.cond ∧ t.halted = s.halted) := by
  rcases act_next h with hreset | ⟨b, ha, ⟨-, rfl⟩ | ⟨-, -, rfl⟩⟩ | ⟨-, rfl⟩ | ⟨_, _, -, -, -, rfl⟩ |
    ⟨_, -, rfl, -⟩ | ⟨-, rfl⟩ | hclock
  · exact .inl hreset
  · exact .inr (.inr (.inr ⟨rfl, rfl⟩))
  · exact .inr (.inl ⟨b, ha, rfl, rfl⟩)
  · exact .inr (.inr (.inr ⟨rfl, rfl⟩))
  · exact .inr (.inr (.inr ⟨rfl, rfl⟩))
  · exact .inr (.inr (.inr ⟨rfl, rfl⟩))
  · exact .inr (.inr (.inr ⟨rfl, rfl⟩))
  · exact .inr (.inr (.inl hclock))

/-- The actions that change `halted`: reset and `run` clear it, the clock of a step sets it (R18). -/
theorem act_changes_halted {a : HostAction} {s t : State} (h : act a s = .next t) (hne : t.halted ≠ s.halted) :
    a = .reset ∧ t.halted = false ∨ (∃ b, a = .run b ∧ t.halted = false) ∨
      (a = .clock true ∧ t.halted = true) := by
  rcases act_next_cond_halted h with ⟨ha, rfl⟩ | ⟨b, ha, -, ht⟩ | ⟨ha, hs⟩ | ⟨-, ht⟩
  · exact .inl ⟨ha, rfl⟩
  · exact .inr (.inl ⟨b, ha, ht⟩)
  · obtain ⟨hr, -⟩ := step_next hs
    rw [(State.isRunning_iff.1 hr).2, Ne, Bool.not_eq_false] at hne
    exact .inr (.inr ⟨ha, hne⟩)
  · exact absurd ht hne

/-- The actions that change the flags: reset, and the clock of a step (R17, R26). -/
theorem act_changes_cond {a : HostAction} {s t : State} (h : act a s = .next t) (hne : t.cond ≠ s.cond) :
    a = .reset ∨ (a = .clock true ∧ step s = .next t) := by
  rcases act_next_cond_halted h with ⟨ha, -⟩ | ⟨-, -, ht, -⟩ | hclock | ⟨ht, -⟩
  · exact .inl ha
  · exact absurd ht hne
  · exact .inr hclock
  · exact absurd ht hne

/-- A `run` request does not write the flags (R17, R191). -/
theorem hostRun_cond {a : Word} {s t : State} (h : hostRun a s = .next t) : t.cond = s.cond := by
  by_contra hne
  rcases act_changes_cond (a := .run a) h hne with ha | ⟨ha, -⟩ <;> cases ha

/-- A `run` while not Running and with no fault latched is accepted (R110, R130). -/
theorem hostRun_accepted {a : Word} {s : State} (hr : s.running = false) (hf : s.fault = none) :
    hostRun a s = .next { s with halted := false, pc := a, running := true } := by
  simp [hostRun, hr, hf]

theorem runLoop_stopped {s : State} (n : Nat) (h : s.isRunning = false) : runLoop n s = .next s := by
  cases n with
  | zero => rfl
  | succ n => simp [runLoop_succ, h]

theorem runLoop_next {s t : State} (n : Nat) (hr : s.isRunning = true) (h : step s = .next t) :
    runLoop (n + 1) s = runLoop n t := by
  simp [runLoop_succ, hr, h]

theorem runLoop_fault {s : State} {r : Fault} (n : Nat) (hr : s.isRunning = true) (h : step s = .fault r) :
    runLoop (n + 1) s = .fault r := by
  simp [runLoop_succ, hr, h]

end Sys2Proof.Machine
end

section
/-! The statements about registers 0 and 15, `halted` and the flags (spec/10_state.md R11, R12, R17, R18). -/

namespace Sys2Proof.Machine

/-- Settles O19: the cycle with target 0 is the commit to register 0, whose write is lost and whose stored value
is 0; each clause is one arm of the commit. -/
theorem registerZeroIsFixed : Obligations.RegisterZeroIsFixed := by
  refine ⟨State.readReg_zeroReg, State.writeReg_zeroReg, ?_⟩
  intro alu op f s ht hp r u
  have hc : cycle alu op f s = commitAs op.kind zeroReg r.1 u := by
    rw [cycle_executed (State.executes_of_ne hp), ht]; rfl
  have hw : ∀ v, u.writeReg zeroReg v = u := u.writeReg_zeroReg
  have hr : u.readReg zeroReg = 0 := u.readReg_zeroReg
  rw [hc]
  refine ⟨fun ho => ?_, ?_, ?_, ?_, ?_, ?_⟩
  · rw [Opcode.kind_other.2 (by simpa using ho)]
    exact congrArg _ (hw r.1)
  · rintro rfl
    exact ⟨u.commitHalt, rfl, rfl, rfl, rfl⟩
  · rintro m rfl hm
    exact (commitAs_load_ok (s := u) hm).trans (congrArg _ (hw m))
  · rintro e rfl hm
    exact ⟨u.latch e, commitAs_load_error (s := u) hm, rfl, rfl⟩
  · rintro m rfl hm
    exact commitAs_store_ok (s := u) (hr ▸ hm)
  · rintro e rfl hm
    exact ⟨u.latch e, commitAs_store_error (s := u) (hr ▸ hm), rfl, rfl⟩

/-- Settles O46: `halted` after a step, after an action of the host, and in the loop of `run`. -/
theorem onlyHaltSetsHalted : Obligations.OnlyHaltSetsHalted :=
  ⟨fun _ _ => step_leaves_halted,
    fun _ _ _ => act_changes_halted,
    fun _ => rfl,
    fun _ _ hr hf => ⟨_, hostRun_accepted hr hf, rfl⟩,
    fun n s hh => runLoop_stopped n (by simp [State.isRunning, hh]),
    fun n _ _ hr hh => runLoop_next n (State.isRunning_iff.2 ⟨hr, hh⟩),
    fun n _ _ hr hh => runLoop_fault n (State.isRunning_iff.2 ⟨hr, hh⟩)⟩

/-- Settles O47: sub-step 6 overwrites the flags and no other sub-step but the predicate check reads them. -/
theorem flagsAreReadByThePredicateAlone : Obligations.FlagsAreReadByThePredicateAlone :=
  ⟨fun _ _ _ _ _ => cycle_leaves_cond,
    fun _ _ _ _ _ => cycle_withCond_executed,
    fun _ _ _ _ _ => cycle_withCond_skipped,
    fun _ _ => step_leaves_cond,
    fun _ _ _ => hostRun_cond,
    fun _ _ _ => act_changes_cond⟩

/-- Settles O20: the sources are read before the pc advance, the stored register after it. -/
theorem registerFifteenIsThePc : Obligations.RegisterFifteenIsThePc := by
  refine ⟨State.readReg_pcReg, State.writeReg_pcReg, ?_, ?_, ?_⟩
  · intro s f h
    rw [leftOperand_eq, h]
    exact s.readReg_pcReg
  · intro s f h
    rw [rightOperand_eq, h]
    exact congrArg (· + word f.offset) s.readReg_pcReg
  · intro alu f s m ht hp hm
    let u := s.advancePc.setCond (aluFlags alu .store f s)
    have hr : u.readReg f.target = s.pc + 1 := by
      rw [ht]; exact u.readReg_pcReg
    refine ⟨u.setMem m, ?_, rfl, Memory.read_of_write hm⟩
    rw [cycle_executed (State.executes_of_ne hp)]
    exact commitAs_store_ok (s := u) (hr ▸ hm)

end Sys2Proof.Machine
end

section
/-! SUPPORT. The accesses of a step (R44), and the step from another memory: the commit, the instruction and the step
each reach the memory through the accesses listed for them and through nothing else. -/

namespace Sys2Proof.Machine

/-! What accesses there are. -/

/-- The data access of sub-step 7, by the opcode (R44). -/
theorem executedAccess_kind {F Op : Type} (op : Opcode) (t : RegIdx) (r : Word) (s : State F Op) :
    executedAccess op.kind t r s =
      if op = .load then [.read r] else if op = .store then [.write r (s.advancePc.readReg t)] else [] := by
  cases op <;> rfl

theorem dataAccess_skipped {i : Instr} {s : State} (h : s.executes i.fields = false) : dataAccess i s = [] := by
  simp [dataAccess, h]

theorem dataAccess_executed {i : Instr} {s : State} (h : s.executes i.fields = true) :
    dataAccess i s = executedAccess i.op.kind i.fields.target (aluResult defaultAlu i.op i.fields s) s := by
  simp [dataAccess, h]

/-- The data access of an instruction, by its predicate and its opcode (R44). -/
theorem dataAccess_eq (i : Instr) (s : State) :
    dataAccess i s =
      if s.cond &&& i.fields.cond = 0 then []
      else if i.op = .load then [.read (aluResult defaultAlu i.op i.fields s)]
      else if i.op = .store then
        [.write (aluResult defaultAlu i.op i.fields s) (s.advancePc.readReg i.fields.target)]
      else [] := by
  split
  next hp => exact dataAccess_skipped (State.executes_of_eq hp)
  next hp => rw [dataAccess_executed (State.executes_of_ne hp), executedAccess_kind]

/-- The event is no part of what the data access reads (R24). -/
theorem dataAccess_notify (i : Instr) (s : State) (w : Word) (d : Decoded) :
    dataAccess i (s.notify w d) = dataAccess i s := rfl

/-! Another memory that answers the accesses alike. -/

/-- `m'` answers every access of `l` as `m` does: a read with the same word or failure, a write by accepting or
rejecting the same address (R42, R43). -/
structure Memory.AnswersAlike (l : List MemAccess) (m m' : Memory) : Prop where
  reads : ∀ a, .read a ∈ l → m'.read a = m.read a
  writes : ∀ a v, .write a v ∈ l → m'.accepts a = m.accepts a

/-- The memory after the accesses of `l`, in their order. -/
def Memory.afterAccesses (m : Memory) (l : List MemAccess) : Memory := l.foldl Memory.afterAccess m

@[simp] theorem Memory.afterAccesses_nil (m : Memory) : m.afterAccesses [] = m := rfl

@[simp] theorem Memory.afterAccesses_read (m : Memory) (a : Word) (l : List MemAccess) :
    m.afterAccesses (.read a :: l) = m.afterAccesses l := rfl

/-- A write that the memory performs leaves what `MemWrite` answers (R43). -/
theorem Memory.afterAccesses_write_ok {m m' : Memory} {a v : Word} (h : m.write a v = .ok m') :
    m.afterAccesses [.write a v] = m' := by
  rcases m.write_cases a v with ⟨ha, hw⟩ | ⟨-, hw⟩ <;> cases hw.symm.trans h
  exact if_pos ha

/-- A write that the memory rejects leaves it as it was (R43). -/
theorem Memory.afterAccesses_write_error {m : Memory} {a v : Word} {e : Failure} (h : m.write a v = .error e) :
    m.afterAccesses [.write a v] = m := by
  rcases m.write_cases a v with ⟨-, hw⟩ | ⟨ha, hw⟩
  · cases hw.symm.trans h
  · simp [afterAccesses, afterAccess, ha]

namespace Memory.AnswersAlike
variable {l : List MemAccess} {x : MemAccess} {a v : Word} {m m' : Memory}

theorem head_read (h : AnswersAlike (.read a :: l) m m') : m'.read a = m.read a := h.reads a List.mem_cons_self

theorem head_write (h : AnswersAlike (.write a v :: l) m m') : m'.accepts a = m.accepts a :=
  h.writes a v List.mem_cons_self

theorem tail (h : AnswersAlike (x :: l) m m') : AnswersAlike l m m' :=
  ⟨fun a ha => h.reads a (List.mem_cons_of_mem _ ha), fun a v ha => h.writes a v (List.mem_cons_of_mem _ ha)⟩

end Memory.AnswersAlike

/-- Sub-steps 5 to 7 reach the memory through their data access alone (R44, R122). -/
theorem executed_setMem {k : CommitKind} {t : RegIdx} {r : Word × Flags} {s : State} {m : Memory}
    (h : Memory.AnswersAlike (executedAccess k t r.1 s) s.mem m) :
    executed k t r (s.setMem m) =
      mapState (·.setMem (m.afterAccesses (executedAccess k t r.1 s))) (executed k t r s) := by
  let u := s.advancePc.setCond r.2
  show commitAs k t r.1 (u.setMem m) = mapState _ (commitAs k t r.1 u)
  cases k with
  | load =>
    have hm : (u.setMem m).mem.read r.1 = u.mem.read r.1 := h.head_read
    cases hr : u.mem.read r.1 with
    | ok w =>
      rw [commitAs_load_ok hr, commitAs_load_ok (hm.trans hr)]
      exact congrArg _ (u.writeReg_withMem m t w)
    | error e =>
      rw [commitAs_load_error hr, commitAs_load_error (hm.trans hr)]
      rfl
  | store =>
    have hm : m.accepts r.1 = u.mem.accepts r.1 := h.head_write
    rcases u.mem.write_cases r.1 (u.readReg t) with ⟨ha, hw⟩ | ⟨ha, hw⟩
    · have hw' : (u.setMem m).mem.write r.1 (u.readReg t) = .ok (m.place r.1 (u.readReg t)) :=
        if_pos (hm.trans ha)
      rw [commitAs_store_ok hw, commitAs_store_ok hw']
      exact congrArg (fun n => Host.Outcome.next (u.setMem n)) (Memory.afterAccesses_write_ok hw').symm
    · have hw' : (u.setMem m).mem.write r.1 (u.readReg t) = .error (.memoryFault r.1) :=
        if_neg (by simp [hm, ha])
      rw [commitAs_store_error hw, commitAs_store_error hw']
      exact congrArg (fun n => raise _ (u.setMem n)) (Memory.afterAccesses_write_error hw').symm
  | halt => rfl
  | other => exact congrArg _ (u.writeReg_withMem m t r.1)

/-- An instruction reaches the memory through its data access alone (R44). -/
theorem exec_setMem {i : Instr} {s : State} {m : Memory} (h : Memory.AnswersAlike (dataAccess i s) s.mem m) :
    exec i (s.setMem m) = mapState (·.setMem (m.afterAccesses (dataAccess i s))) (exec i s) := by
  have hx : (s.setMem m).executes i.fields = s.executes i.fields := rfl
  rw [exec_is_cycle, exec_is_cycle]
  cases he : s.executes i.fields with
  | false =>
    rw [cycle_skipped he, cycle_skipped (hx.trans he), dataAccess_skipped he]
    rfl
  | true =>
    rw [cycle_executed he, cycle_executed (hx.trans he)]
    rw [dataAccess_executed he] at h ⊢
    exact executed_setMem (r := defaultAlu i.op (leftOperand i.fields s) (rightOperand i.fields s)) h

/-- A step reaches the memory through its accesses alone (R44). -/
theorem step_setMem {s : State} {m : Memory} (h : Memory.AnswersAlike (stepAccesses s) s.mem m) :
    step (s.setMem m) = mapState (·.setMem (m.afterAccesses (stepAccesses s))) (step s) := by
  have hfetch : ∀ {l}, stepAccesses s = .read s.pc :: l → (s.setMem m).fetch = s.fetch :=
    fun hl => (hl ▸ h).head_read
  rcases step_cases s with ⟨hr, hs⟩ | ⟨hr, e, hf, hs⟩ | ⟨hr, w, e, hf, hd, hs⟩ | ⟨hr, w, i, hf, hd, hs⟩
  · rw [hs]
    exact stepOf_stopped hr
  · have hl : stepAccesses s = [.read s.pc] := stepAccessesOf_unfetched hr hf
    rw [hs, hl]
    exact stepOf_unfetched hr ((hfetch hl).trans hf)
  · have hl : stepAccesses s = [.read s.pc] := stepAccessesOf_undecoded hr hf hd
    rw [hs, hl]
    exact stepOf_undecoded hr ((hfetch hl).trans hf) hd
  · have hl : stepAccesses s = .read s.pc :: dataAccess i s := stepAccessesOf_decoded hr hf hd
    rw [hs, hl, step_decoded (s := s.setMem m) hr ((hfetch hl).trans hf) hd]
    exact exec_setMem (s := s.notify w i.record) (hl ▸ h).tail

end Sys2Proof.Machine
end

section
/-! The statement about the accesses of a step (spec/20_memory.md R44). -/

namespace Sys2Proof.Machine

/-- Settles O48: the accesses of a decoded step are its fetch and its data access, and the step depends on the
memory through them alone. -/
theorem stepsReachMemoryInThreeWaysOnly : Obligations.StepsReachMemoryInThreeWaysOnly := by
  refine ⟨?_, fun _ _ hreads hwrites => step_setMem ⟨hreads, hwrites⟩⟩
  intro s w i hr hh hf hd
  rw [← dataAccess_eq]
  exact stepAccessesOf_decoded (State.isRunning_iff.2 ⟨hr, hh⟩) hf hd

end Sys2Proof.Machine
end

section
/-! SUPPORT. The codec bit by bit (spec/40_bitfield_codec.md R82 to R86): the two masks, what `extract` reads and what
`insert` writes. Every statement about a field is derived from these. -/

namespace Sys2Proof.Machine

namespace BitField
variable (d : BitField) (v w : Word) (k : Nat)

/-- The mask is 1 inside the field and 0 outside it (R82). -/
@[simp] theorem mask_getLsbD : d.mask.getLsbD k = decide (d.fromBit ≤ k ∧ k ≤ d.toBit) := by
  have hv := d.valid
  rw [mask, BitVec.getLsbD_ofNat, Nat.testBit_mul_two_pow, Nat.testBit_two_pow_sub_one, fieldWidth,
    ← Bool.decide_and, ← Bool.decide_and, decide_eq_decide]
  omega

/-- `(2^32 - 1) - mask` over the integers is the bitwise complement (R82). -/
theorem maskComp_eq_not : d.maskComp = ~~~d.mask := by
  apply BitVec.eq_of_toNat_eq
  rw [maskComp, BitVec.toNat_ofNat, BitVec.toNat_not]
  exact Nat.mod_eq_of_lt (by omega)

/-- The complement is 1 outside the field and 0 inside it (R82). -/
@[simp] theorem maskComp_getLsbD :
    d.maskComp.getLsbD k = decide (k < 32 ∧ ¬(d.fromBit ≤ k ∧ k ≤ d.toBit)) := by
  rw [maskComp_eq_not, BitVec.getLsbD_not, mask_getLsbD, ← decide_not, ← Bool.decide_and]

/-- Bit `k` of `extract` is bit `k` of the field, and 0 past the field's width (R85). -/
@[simp] theorem extract_getLsbD :
    (d.extract w).getLsbD k = (decide (k < d.fieldWidth) && w.getLsbD (d.fromBit + k)) := by
  have hk : (d.fromBit ≤ d.fromBit + k ∧ d.fromBit + k ≤ d.toBit) ↔ k < d.fieldWidth := by
    have hv := d.valid
    rw [fieldWidth]
    omega
  rw [extract, BitVec.getLsbD_ushiftRight, BitVec.getLsbD_and, mask_getLsbD, decide_eq_decide.2 hk, Bool.and_comm]

/-- `extract` is `word[t:f]` as an integer (R85). -/
theorem extract_toNat : (d.extract w).toNat = w.toNat / 2 ^ d.fromBit % 2 ^ d.fieldWidth := by
  apply Nat.eq_of_testBit_eq
  intro k
  rw [BitVec.testBit_toNat, extract_getLsbD, Nat.testBit_mod_two_pow, Nat.testBit_div_two_pow, BitVec.testBit_toNat,
    Nat.add_comm]

/-- The result of `extract` fits the field (R85). -/
theorem extract_toNat_lt : (d.extract w).toNat < 2 ^ d.fieldWidth := by
  rw [extract_toNat]
  exact Nat.mod_lt _ (Nat.two_pow_pos _)

variable {d w} in
/-- `extract` depends on the bits of the field alone (R85). -/
theorem extract_congr {w' : Word} (h : ∀ k, d.fromBit ≤ k → k ≤ d.toBit → w'.getLsbD k = w.getLsbD k) :
    d.extract w' = d.extract w := by
  apply BitVec.eq_of_getLsbD_eq
  intro k _
  rw [extract_getLsbD, extract_getLsbD]
  by_cases hk : k < d.fieldWidth
  · have hv := d.valid
    rw [h (d.fromBit + k) (by omega) (by rw [fieldWidth] at hk; omega)]
  · rw [decide_eq_false hk, Bool.false_and, Bool.false_and]

variable {d} in
/-- The descriptor (0, 31) reads the whole Word (R85). -/
theorem extract_full (hf : d.fromBit = 0) (ht : d.toBit = 31) : d.extract w = w := by
  apply BitVec.eq_of_toNat_eq
  rw [extract_toNat, fieldWidth, hf, ht, Nat.pow_zero, Nat.div_one]
  exact Nat.mod_eq_of_lt w.isLt

variable {d} in
/-- A descriptor of width 1 reads one bit (R85). -/
theorem extract_oneBit (h : d.fromBit = d.toBit) : d.extract w = if w.getLsbD d.fromBit then 1 else 0 := by
  have hw : d.fieldWidth = 1 := by
    rw [fieldWidth, h, Nat.sub_self]
  have hbit : (d.extract w).toNat = (w.getLsbD d.fromBit).toNat := by
    rw [extract_toNat, hw, Nat.pow_one, ← Nat.toNat_testBit, BitVec.testBit_toNat]
  apply BitVec.eq_of_toNat_eq
  rw [hbit]
  cases w.getLsbD d.fromBit <;> rfl

/-- Bit by bit: `insert` takes the value's low bits inside the field and the word's own bits outside it (R86). -/
@[simp] theorem insert_getLsbD :
    (d.insert v w).getLsbD k =
      if d.fromBit ≤ k ∧ k ≤ d.toBit then v.getLsbD (k - d.fromBit) else w.getLsbD k := by
  rw [insert, BitVec.getLsbD_or, BitVec.getLsbD_and, BitVec.getLsbD_and, maskComp_getLsbD, mask_getLsbD,
    BitVec.getLsbD_shiftLeft]
  split
  next hk =>
    have hv := d.valid
    have hk32 : k < 32 := by omega
    simp [hk, hk32]
  next hk =>
    by_cases hk32 : k < 32
    · simp [hk, hk32]
    · simp [hk, hk32, BitVec.getLsbD_of_ge w k (Nat.le_of_not_lt hk32)]

theorem insert_getLsbD_inside (hf : d.fromBit ≤ k) (ht : k ≤ d.toBit) :
    (d.insert v w).getLsbD k = v.getLsbD (k - d.fromBit) := by
  rw [insert_getLsbD, if_pos ⟨hf, ht⟩]

theorem insert_getLsbD_outside (hk : ¬(d.fromBit ≤ k ∧ k ≤ d.toBit)) :
    (d.insert v w).getLsbD k = w.getLsbD k := by
  rw [insert_getLsbD, if_neg hk]

variable {d w} in
/-- `insert` does not depend on the old content of the field (R86). -/
theorem insert_congr {w' : Word} (h : ∀ k, ¬(d.fromBit ≤ k ∧ k ≤ d.toBit) → w'.getLsbD k = w.getLsbD k) :
    d.insert v w' = d.insert v w := by
  apply BitVec.eq_of_getLsbD_eq
  intro k _
  rw [insert_getLsbD, insert_getLsbD]
  exact ite_congr rfl (fun _ => rfl) (h k)

variable {d} in
/-- The descriptor (0, 31) replaces the whole Word (R86). -/
theorem insert_full (hf : d.fromBit = 0) (ht : d.toBit = 31) : d.insert v w = v := by
  apply BitVec.eq_of_getLsbD_eq
  intro k hk
  rw [insert_getLsbD_inside d v w k (by omega) (by omega), hf, Nat.sub_zero]

/-- Inserting 0 clears the field (R86). -/
theorem insert_zero : d.insert 0 w = w &&& d.maskComp := by
  simp [insert]

end BitField

end Sys2Proof.Machine
end

section
/-! SUPPORT. The standalone `sign_extend` (spec/40_bitfield_codec.md R90) and its unit's port (R29). -/

namespace Sys2Proof.Machine

theorem signExtend_of_le_one (field : Word) {width : Int} (h : width ≤ 1) :
    signExtend field width = .error (.invalidWidth width) := if_pos h

/-- The formula of R90, on every width above 1. -/
theorem signExtend_of_one_lt (field : Word) {width : Int} (h : 1 < width) :
    signExtend field width =
      .ok (if field.toNat.testBit (width.toNat - 1) then (field.toNat : Int) - 2 ^ width.toNat
        else (field.toNat : Int)) := by
  rw [signExtend, if_neg (Int.not_le.2 h), BitVec.testBit_toNat, apply_ite Except.ok]

/-- A field that fits its width is read in two's complement: `sext_width` of R90. -/
theorem signExtend_eq_toInt {field : Word} {n : Nat} (hn : 2 ≤ n) (hfit : field.toNat < 2 ^ n) :
    signExtend field n = .ok (field.setWidth n).toInt := by
  have htoNat : (field.setWidth n).toNat = field.toNat := by
    rw [BitVec.toNat_setWidth, Nat.mod_eq_of_lt hfit]
  have hmsb : (field.setWidth n).msb = field.toNat.testBit (n - 1) := by
    rw [BitVec.msb_setWidth, decide_eq_true (by omega), Bool.true_and, BitVec.testBit_toNat]
  rw [signExtend_of_one_lt field (by omega), BitVec.toInt_eq_msb_cond, htoNat, hmsb, Int.toNat_natCast, Nat.cast_pow,
    Nat.cast_ofNat]

/-- The unit delivers the result as a Word (R29, R90). -/
theorem signExtender_result {field : Word} {width : BitVec 6} {v : Int}
    (h : signExtend field width.toNat = .ok v) : (signExtender field width).result = word v := by
  rw [signExtender, h]

end Sys2Proof.Machine
end

section
/-! The statements about `extract`, `insert` and `sign_extend` (spec/40_bitfield_codec.md R85, R86, R90). -/

namespace Sys2Proof.Machine

/-- Settles O3: the bits of `extract` are those of the field, and its value follows from them. -/
theorem extractReadsTheField : Obligations.ExtractReadsTheField := fun d w =>
  ⟨rfl, d.extract_toNat w, Nat.le_sub_one_of_lt (d.extract_toNat_lt w), fun _ => BitField.extract_congr,
    BitField.extract_full w, BitField.extract_oneBit w⟩

/-- Settles O4: the bits of `insert` inside the field are the value's, those outside it the word's. -/
theorem insertWritesTheFieldOnly : Obligations.InsertWritesTheFieldOnly := fun d v w =>
  ⟨rfl, d.insert_getLsbD_inside v w, d.insert_getLsbD_outside v w, fun _ => BitField.insert_congr v,
    BitField.insert_full v w, d.insert_zero w⟩

/-- Settles O10: the failure, the formula, and on a field that fits its width the two's complement value. -/
theorem signExtendMeetsItsContract : Obligations.SignExtendMeetsItsContract :=
  ⟨fun field _ => signExtend_of_le_one field,
    fun field _ => signExtend_of_one_lt field,
    fun _ _ hn _ hfit => ⟨signExtend_eq_toInt hn hfit, BitVec.le_toInt _, BitVec.toInt_lt⟩,
    fun _ _ _ => signExtender_result,
    by decide, by decide⟩

end Sys2Proof.Machine
end

section
/-! SUPPORT. The cycle by its predicate (R117, R118, R121) and its commit by what it answers (R122 to R126): what a
LOAD and a STORE that complete have read and written, and which failure a commit can raise. -/

namespace Sys2Proof.Machine

/-! The memory (R42). -/

/-- The only failure of a read (R42). -/
theorem Memory.read_error {m : Memory} {a : Word} {e : Failure} (h : m.read a = .error e) : e = .memoryFault a := by
  rcases m.read_cases a with ⟨-, hr⟩ | ⟨-, hr⟩ <;> cases hr.symm.trans h
  rfl

/-! Registers (R10, R11). -/

/-- A register other than 0 holds what was last written to it (R10, R11). -/
theorem State.readReg_writeReg_same {F Op : Type} {s : State F Op} {r : RegIdx} {v : Word} (h : r ≠ zeroReg) :
    (s.writeReg r v).readReg r = v := by
  rw [State.readReg_writeReg, if_neg h, if_pos rfl]

/-! Sub-step 7 (R122). -/

/-- Sub-step 7 always leaves a state, whether it completes or fails (R122). -/
theorem exists_leaves_commitAs (k : CommitKind) (r : RegIdx) (v : Word) (s : State) :
    ∃ t, leaves (commitAs k r v s) t := by
  rcases commitAs_cases k r v s with ⟨-, -, hc⟩ | ⟨-, -, hc⟩ | ⟨-, -, hc⟩ | ⟨-, hc⟩ | ⟨-, hc⟩ <;> rw [hc]
  · exact ⟨_, leaves_next.2 rfl⟩
  · exact ⟨_, leaves_next.2 rfl⟩
  · exact ⟨_, leaves_raise.2 rfl⟩
  · exact ⟨_, leaves_next.2 rfl⟩
  · exact ⟨_, leaves_next.2 rfl⟩

section
variable {F Op : Type} {s t : State F Op} {k : CommitKind} {r : RegIdx} {v : Word} {e : Failure}

/-- A LOAD that completes has written the word it read to its target (R124). -/
theorem commitAs_load_next (h : commitAs .load r v s = .next t) : ∃ m, s.mem.read v = .ok m ∧ t = s.writeReg r m := by
  cases hm : s.mem.read v with
  | ok m =>
    cases (commitAs_load_ok hm).symm.trans h
    exact ⟨m, rfl, rfl⟩
  | error e => cases (commitAs_load_error hm).symm.trans h

/-- A STORE that completes leaves the memory that its write answers (R125). -/
theorem commitAs_store_next (h : commitAs .store r v s = .next t) :
    ∃ m, s.mem.write v (s.readReg r) = .ok m ∧ t = s.setMem m := by
  cases hm : s.mem.write v (s.readReg r) with
  | ok m =>
    cases (commitAs_store_ok hm).symm.trans h
    exact ⟨m, rfl, rfl⟩
  | error e => cases (commitAs_store_error hm).symm.trans h

/-- The only failure of sub-step 7 is that of the memory at the ALU's result (R124, R125, R165). -/
theorem commitAs_failure (h : commitAs k r v s = .fault (.failure e t)) : e = .memoryFault v := by
  rcases commitAs_cases k r v s with ⟨-, -, hc⟩ | ⟨-, -, hc⟩ | ⟨-, -, hc⟩ | ⟨-, hc⟩ | ⟨-, hc⟩ <;>
    cases hc.symm.trans h
  rfl

end

/-! Sub-steps 3 to 7 (R112), by what the statements say of the predicate. -/

section
variable {alu : Alu} {op : Opcode} {f : Fields} {i : Instr} {s : State}

/-- Where the predicate passes, a cycle is the commit of its opcode's class after the pc advance and the flags
replacement (R120 to R122). -/
theorem cycle_of_ne (h : s.cond &&& f.cond ≠ 0) :
    cycle alu op f s =
      commitAs op.kind f.target (aluResult alu op f s) (s.advancePc.setCond (aluFlags alu op f s)) :=
  cycle_executed (State.executes_of_ne h)

/-- Where the predicate fails, a cycle only advances the pc (R118). -/
theorem cycle_of_eq (h : s.cond &&& f.cond = 0) : cycle alu op f s = .next s.advancePc :=
  cycle_skipped (State.executes_of_eq h)

/-- Where the predicate fails, an instruction only advances the pc (R118). -/
theorem exec_of_eq (h : s.cond &&& i.fields.cond = 0) : exec i s = .next s.advancePc := by
  rw [exec_is_cycle, cycle_of_eq h]

end

/-- The class of "all other opcodes" is what is left without LOAD, STORE and HALT (R62, R123). -/
theorem Opcode.kind_other_of_notMem {op : Opcode} (h : op ∉ [Opcode.load, .store, .halt]) : op.kind = .other := by
  cases op with
  | load | store | halt => simp at h
  | add | sub | mul | div => rfl

end Sys2Proof.Machine
end

section
/-! The statements about the skipped and the executed cycle and the commit of each class but STORE
(spec/41_sequencer.md R118, R121, R123, R124, R126). -/

namespace Sys2Proof.Machine

/-- Settles O25: an executed cycle is the commit in the state whose flags are already the ALU's, and no commit writes
the flags; the ALU's result is the address of the commit's access. -/
theorem executedInstructionsReplaceTheFlags : Obligations.ExecutedInstructionsReplaceTheFlags := by
  intro alu op f s hp r
  have hc : cycle alu op f s = commitAs op.kind f.target r.1 (s.advancePc.setCond r.2) := cycle_of_ne hp
  refine ⟨?_, ?_, ?_, ?_, ?_⟩
  · rw [hc]
    exact exists_leaves_commitAs ..
  · intro t ht
    exact (cycle_leaves_cond ht).trans (if_neg hp)
  · rintro t rfl ht h0
    obtain ⟨m, hm, rfl⟩ := commitAs_load_next (hc.symm.trans ht)
    exact hm.trans (congrArg _ (State.readReg_writeReg_same h0).symm)
  · intro t a _ ht
    exact Failure.memoryFault.inj (commitAs_failure (hc.symm.trans ht))
  · rintro t rfl ht
    obtain ⟨m, hm, rfl⟩ := commitAs_store_next (hc.symm.trans ht)
    exact hm

/-- Settles O23: the cycle, the instruction and the step with its event, where the predicate fails. -/
theorem skippedInstructionsOnlyAdvanceThePc : Obligations.SkippedInstructionsOnlyAdvanceThePc := by
  refine ⟨fun _ _ _ _ => cycle_of_eq, fun _ _ => exec_of_eq, ?_⟩
  intro s w i hr hh hf hd hp
  rw [step_decoded (State.isRunning_iff.2 ⟨hr, hh⟩) hf hd]
  exact exec_of_eq (s := s.notify w i.record) hp

/-- Settles O26: the commit of "all other opcodes" is the register write, which register 0 discards and which for
register 15 sets the pc. -/
theorem otherOpcodesCommitTheResult : Obligations.OtherOpcodesCommitTheResult := by
  intro alu op f s ho hp r u
  have hc : cycle alu op f s = .next (u.writeReg f.target r.1) := by
    rw [cycle_of_ne hp, Opcode.kind_other_of_notMem ho]
    rfl
  refine ⟨hc, fun ht => ?_, fun ht => ⟨?_, rfl⟩⟩
  · rw [hc, ht]
    exact congrArg _ (u.writeReg_zeroReg r.1)
  · rw [hc, ht]
    exact congrArg _ (u.writeReg_pcReg r.1)

/-- Settles O27: the commit of a LOAD, by what its read answers. -/
theorem loadCommitsTheWordRead : Obligations.LoadCommitsTheWordRead := by
  intro alu f s hp r u
  have hc : cycle alu .load f s = commitAs .load f.target r.1 u := cycle_of_ne hp
  refine ⟨fun m hm => ?_, fun e he => ⟨Memory.read_error he, u.latch e, ?_, rfl, rfl, ?_⟩⟩
  · have hw : cycle alu .load f s = .next (u.writeReg f.target m) := hc.trans (commitAs_load_ok (s := u) hm)
    refine ⟨hw, fun ht => ?_, fun ht => ?_⟩
    · rw [hw, ht]
      exact congrArg _ (u.writeReg_zeroReg m)
    · rw [hw, ht]
      exact congrArg _ (u.writeReg_pcReg m)
  · exact hc.trans (commitAs_load_error (s := u) he)
  · exact fun q hq => State.readReg_congr_gpr rfl hq

/-- Settles O29: the commit of a HALT changes the two control bits alone, and the state it leaves is not Running. -/
theorem haltSetsHaltedAndWritesNoRegister : Obligations.HaltSetsHaltedAndWritesNoRegister := by
  intro alu f s hp r
  let u := s.advancePc.setCond r.2
  refine ⟨u.commitHalt, cycle_of_ne hp, rfl, rfl, rfl, ?_, rfl, ?_⟩
  · exact fun q hq => State.readReg_congr_gpr rfl hq
  · exact fun n => runLoop_stopped n rfl

end Sys2Proof.Machine
end

section
/-! The statement about an accepted `run` (spec/70_reset_and_hazards.md R191). -/

namespace Sys2Proof.Machine

/-- Settles O53: the state an accepted `run` answers differs in `halted`, the pc and `running` alone, and a register
other than 15 is read from the register file. -/
theorem runIsNotAReset : Obligations.RunIsNotAReset := by
  intro a s hr hf
  refine ⟨_, hostRun_accepted hr hf, rfl, rfl, fun r h15 => ?_, rfl, rfl⟩
  exact State.readReg_congr_gpr rfl h15

end Sys2Proof.Machine
end

section
/-! SUPPORT. A field as a bit vector of its own width (spec/40_bitfield_codec.md R82 to R96): `extract` is its zero
extension, `extract_signed` its value in two's complement, and `insert` replaces it and no other. -/

namespace Sys2Proof.Machine

namespace BitField
variable (d : BitField) (v w : Word) (k : Nat)

/-! The widths and constants (R82). -/

theorem fieldWidth_pos : 1 ≤ d.fieldWidth := Nat.le_add_left ..

theorem fieldWidth_le : d.fieldWidth ≤ 32 := by
  have hv := d.valid
  rw [fieldWidth]
  omega

/-- The last bit of the field, counted from its first (R82). -/
theorem fromBit_add_fieldWidth : d.fromBit + d.fieldWidth = d.toBit + 1 := by
  have hv := d.valid
  rw [fieldWidth]
  omega

theorem signBit_eq_twoPow : d.signBit = BitVec.twoPow 32 (d.fieldWidth - 1) := by
  apply BitVec.eq_of_toNat_eq
  rw [signBit, BitVec.toNat_ofNat, BitVec.toNat_twoPow]

@[simp] theorem signBit_getLsbD : d.signBit.getLsbD k = decide (k = d.fieldWidth - 1) := by
  have hle := d.fieldWidth_le
  have hpos := d.fieldWidth_pos
  rw [signBit_eq_twoPow, BitVec.getLsbD_twoPow, decide_eq_true (by omega), Bool.true_and, decide_eq_decide]
  exact eq_comm

/-- comp is twice sign_bit (R82). -/
theorem comp_eq_two_mul_signBit : d.comp = 2 * (d.signBit.toNat : Int) := by
  have hle := d.fieldWidth_le
  have hpos := d.fieldWidth_pos
  rw [signBit_eq_twoPow, BitVec.toNat_twoPow_of_lt (by omega), comp]
  obtain ⟨n, hn⟩ : ∃ n, d.fieldWidth = n + 1 := ⟨d.fieldWidth - 1, by omega⟩
  rw [hn, Nat.add_sub_cancel, pow_succ, mul_comm]
  simp

/-! The field itself. -/

/-- `word[t:f]`, as a bit vector of the field's width. -/
def bits (d : BitField) (w : Word) : BitVec d.fieldWidth := w.extractLsb' d.fromBit d.fieldWidth

/-- `extract` reads the field, zero extended (R85). -/
theorem extract_eq_bits : d.extract w = (d.bits w).setWidth 32 := by
  apply BitVec.eq_of_getLsbD_eq
  intro k hk
  rw [extract_getLsbD, BitVec.getLsbD_setWidth, decide_eq_true hk, Bool.true_and, bits, BitVec.getLsbD_extractLsb']

/-- A field's value in its own width loses nothing (R85). -/
theorem setWidth_extract : (d.extract w).setWidth d.fieldWidth = d.bits w := by
  rw [extract_eq_bits, BitVec.setWidth_setWidth_of_le _ d.fieldWidth_le, BitVec.setWidth_eq]

/-- A field has the same value as a Word and in its own width (R85). -/
theorem extract_toNat_eq_bits : (d.extract w).toNat = (d.bits w).toNat := by
  rw [extract_eq_bits, BitVec.toNat_setWidth_of_le d.fieldWidth_le]

/-- `extract_signed` reads the field in two's complement (R88). -/
theorem extractSigned_eq_toInt : d.extractSigned w = (d.bits w).toInt := by
  have hle := d.fieldWidth_le
  have hpos := d.fieldWidth_pos
  have hne : BitVec.twoPow 32 (d.fieldWidth - 1) ≠ 0#32 := fun h => by
    simpa [show d.fieldWidth - 1 < 32 by omega] using congrArg (BitVec.getLsbD · (d.fieldWidth - 1)) h
  have hmsb : d.extract w &&& d.signBit ≠ 0 ↔ (d.bits w).msb = true := by
    show d.extract w &&& d.signBit ≠ 0#32 ↔ _
    rw [signBit_eq_twoPow, BitVec.and_twoPow, ite_ne_right_iff, and_iff_left hne, BitVec.msb_eq_getLsbD_last,
      ← setWidth_extract, BitVec.getLsbD_setWidth, decide_eq_true (by omega), Bool.true_and]
  simp only [extractSigned, hmsb, extract_toNat_eq_bits, BitVec.toInt_eq_msb_cond, comp, Nat.cast_pow, Nat.cast_ofNat]

/-- A field holds what was last inserted into it, cut to its width (R92). -/
@[simp] theorem bits_insert : d.bits (d.insert v w) = v.setWidth d.fieldWidth := by
  apply BitVec.eq_of_getLsbD_eq
  intro k hk
  have hw := d.fromBit_add_fieldWidth
  rw [bits, BitVec.getLsbD_extractLsb', decide_eq_true hk, Bool.true_and,
    insert_getLsbD_inside _ _ _ _ (by omega) (by omega), Nat.add_sub_cancel_left, BitVec.getLsbD_setWidth,
    decide_eq_true hk, Bool.true_and]

variable {d w} in
/-- A field is equal in two words whose bits in it are. -/
theorem bits_congr {w' : Word} (h : ∀ k, d.fromBit ≤ k → k ≤ d.toBit → w'.getLsbD k = w.getLsbD k) :
    d.bits w' = d.bits w := by
  rw [← setWidth_extract, ← setWidth_extract, extract_congr h]

variable {d w k} in
/-- Two words with an equal field have equal bits in it. -/
theorem getLsbD_of_bits_eq {w' : Word} (h : d.bits w' = d.bits w) (hf : d.fromBit ≤ k) (ht : k ≤ d.toBit) :
    w'.getLsbD k = w.getLsbD k := by
  have hw := d.fromBit_add_fieldWidth
  have hk := congrArg (BitVec.getLsbD · (k - d.fromBit)) h
  simpa [bits, show k - d.fromBit < d.fieldWidth by omega, Nat.add_sub_cancel' hf] using hk

/-- A value of the field's own width survives an insert into the field (R92). -/
theorem bits_insert_setWidth (x : BitVec d.fieldWidth) : d.bits (d.insert (x.setWidth 32) w) = x := by
  rw [bits_insert, BitVec.setWidth_setWidth_of_le _ d.fieldWidth_le, BitVec.setWidth_eq]

/-- Every integer that the field can hold in two's complement survives an insert into the field (R94). -/
theorem toInt_bits_insert_word {n : Int} (hlo : -2 ^ (d.fieldWidth - 1) ≤ n) (hhi : n < 2 ^ (d.fieldWidth - 1)) :
    (d.bits (d.insert (word n) w)).toInt = n := by
  have hx : (BitVec.ofInt d.fieldWidth n).toInt = n := BitVec.toInt_ofInt_eq_self d.fieldWidth_pos hlo hhi
  have hword : word n = (BitVec.ofInt d.fieldWidth n).signExtend 32 := by
    rw [BitVec.signExtend, hx]
  rw [bits_insert, hword, ← BitVec.signExtend_eq_setWidth_of_le _ d.fieldWidth_le, BitVec.signExtend,
    BitVec.toInt_signExtend_of_le d.fieldWidth_le, BitVec.ofInt_toInt, hx]

variable {d} in
/-- An insert into another field leaves this one (R93). -/
theorem bits_insert_of_disjoint {e : BitField} (h : d.toBit < e.fromBit ∨ e.toBit < d.fromBit) :
    d.bits (e.insert v w) = d.bits w := by
  apply BitVec.eq_of_getLsbD_eq
  intro k hk
  have hw := d.fromBit_add_fieldWidth
  rw [bits, bits, BitVec.getLsbD_extractLsb', BitVec.getLsbD_extractLsb', insert_getLsbD_outside _ _ _ _ (by omega)]

/-! `insert`, in the value and in the word (R87, R92, R93, R95). -/

variable {d v} in
/-- `insert` depends on the low bits of the value alone (R87). -/
theorem insert_congr_value {v' : Word} (h : ∀ k, k < d.fieldWidth → v'.getLsbD k = v.getLsbD k) :
    d.insert v' w = d.insert v w := by
  have hw := d.fromBit_add_fieldWidth
  apply BitVec.eq_of_getLsbD_eq
  intro k _
  rw [insert_getLsbD, insert_getLsbD]
  exact ite_congr rfl (fun hk => h _ (by omega)) (fun _ => rfl)

/-- What `extract` reads after `insert` (R92). -/
theorem extract_insert_toNat : (d.extract (d.insert v w)).toNat = v.toNat % 2 ^ d.fieldWidth := by
  rw [extract_toNat_eq_bits, bits_insert, BitVec.toNat_setWidth]

/-- A field read back changes nothing (R95). -/
theorem insert_extract : d.insert (d.extract w) w = w := by
  have hw := d.fromBit_add_fieldWidth
  apply BitVec.eq_of_getLsbD_eq
  intro k _
  rw [insert_getLsbD]
  split
  · rw [extract_getLsbD, decide_eq_true (by omega), Bool.true_and, Nat.add_sub_cancel' (by omega)]
  · rfl

/-- A later insert overrides an earlier one (R93). -/
@[simp] theorem insert_insert (v' : Word) : d.insert v (d.insert v' w) = d.insert v w :=
  insert_congr v fun k hk => d.insert_getLsbD_outside v' w k hk

/-- `insert` leaves every bit outside the field (R93). -/
theorem insert_and_maskComp : d.insert v w &&& d.maskComp = w &&& d.maskComp := by
  rw [← insert_zero, insert_insert, insert_zero]

variable {d} in
/-- Inserts into fields that do not overlap commute (R93). -/
theorem insert_comm {e : BitField} (h : d.toBit < e.fromBit ∨ e.toBit < d.fromBit) (v' : Word) :
    d.insert v (e.insert v' w) = e.insert v' (d.insert v w) := by
  apply BitVec.eq_of_getLsbD_eq
  intro k _
  by_cases hd : d.fromBit ≤ k ∧ k ≤ d.toBit
  · have he : ¬(e.fromBit ≤ k ∧ k ≤ e.toBit) := by omega
    simp [hd, he]
  · simp [hd]

/-! `extract_signed` (R88, R89, R96). -/

/-- The field's signed value is congruent to the field (R88). -/
theorem extractSigned_emod : d.extractSigned w % 2 ^ d.fieldWidth = ((d.extract w).toNat : Int) := by
  have hlt : ((d.bits w).toNat : Int) < 2 ^ d.fieldWidth := by exact_mod_cast (d.bits w).isLt
  have hmod := Int.bmod_emod (x := (d.bits w).toNat) (m := 2 ^ d.fieldWidth)
  push_cast at hmod
  rw [extractSigned_eq_toInt, BitVec.toInt_eq_toNat_bmod, hmod, Int.emod_eq_of_lt (Int.natCast_nonneg _) hlt,
    extract_toNat_eq_bits]

/-- As a Word the field's signed value is its sign extension (R88). -/
theorem word_extractSigned_getLsbD (hk : k < 32) :
    (word (d.extractSigned w)).getLsbD k =
      w.getLsbD (if k < d.fieldWidth then d.fromBit + k else d.toBit) := by
  have hw := d.fromBit_add_fieldWidth
  have hpos := d.fieldWidth_pos
  have hsext : word (d.extractSigned w) = (d.bits w).signExtend 32 := by
    rw [extractSigned_eq_toInt, BitVec.signExtend]
  have hmsb : (d.bits w).msb = w.getLsbD d.toBit := by
    rw [BitVec.msb_eq_getLsbD_last, bits, BitVec.getLsbD_extractLsb', decide_eq_true (by omega), Bool.true_and,
      show d.fromBit + (d.fieldWidth - 1) = d.toBit by omega]
  rw [hsext, BitVec.getLsbD_signExtend, decide_eq_true hk, Bool.true_and]
  split
  next hlt => rw [bits, BitVec.getLsbD_extractLsb', decide_eq_true hlt, Bool.true_and]
  next => exact hmsb

variable {d} in
/-- A field of one bit is read as 0 or -1 (R89). -/
theorem extractSigned_oneBit (h : d.fromBit = d.toBit) :
    d.extractSigned w = if w.getLsbD d.fromBit then -1 else 0 := by
  have hw : d.fieldWidth = 1 := by
    rw [fieldWidth, h, Nat.sub_self]
  rw [extractSigned, extract_oneBit w h, signBit, comp, hw]
  cases w.getLsbD d.fromBit <;> rfl

variable {d} in
/-- The descriptor (0, 31) reads `signed` of the Word (R89). -/
theorem extractSigned_full (hf : d.fromBit = 0) (ht : d.toBit = 31) : d.extractSigned w = signed w := by
  obtain ⟨f, t, hv⟩ := d
  subst hf ht
  rw [extractSigned_eq_toInt]
  exact congrArg BitVec.toInt (BitVec.extractLsb'_eq_self (x := w))

variable {d} in
/-- The standalone `sign_extend` agrees wherever it is defined (R96). -/
theorem signExtend_extract (h : 2 ≤ d.fieldWidth) :
    signExtend (d.extract w) d.fieldWidth = .ok (d.extractSigned w) := by
  rw [signExtend_eq_toInt h (d.extract_toNat_lt w), setWidth_extract, extractSigned_eq_toInt]

end BitField

end Sys2Proof.Machine
end

section
/-! SUPPORT. construct (spec/40_bitfield_codec.md R81), `sign_extend` outside its domain (R91) and the ports of the
three units (R27 to R29). -/

namespace Sys2Proof.Machine

theorem construct_of_legal {f t : Int} (h : 0 ≤ f ∧ f ≤ t ∧ t ≤ 31) :
    construct f t = .ok { fromBit := f.toNat, toBit := t.toNat, valid := by omega } := dif_pos h

theorem construct_of_illegal {f t : Int} (h : ¬(0 ≤ f ∧ f ≤ t ∧ t ≤ 31)) :
    construct f t = .error (.invalidRange f t) := dif_neg h

/-- On 5-bit ports the one illegal range is the reversed one (R27, R28). -/
theorem construct_ports (f t : BitVec 5) :
    (¬t < f ∧ ∃ d, construct f.toNat t.toNat = .ok d) ∨
      (t < f ∧ construct f.toNat t.toNat = .error (.invalidRange f.toNat t.toNat)) := by
  have ht := t.isLt
  by_cases hlt : t < f
  · exact .inr ⟨hlt, construct_of_illegal (by rw [BitVec.lt_def] at hlt; omega)⟩
  · exact .inl ⟨hlt, _, construct_of_legal (by rw [BitVec.lt_def] at hlt; omega)⟩

section
variable {w v : Word} {f t : BitVec 5} {sel : Bool} {d : BitField} {e : Failure}

theorem bitExtractor_ok (h : construct f.toNat t.toNat = .ok d) :
    bitExtractor w f t sel =
      { field := if sel then word (d.extractSigned w) else d.extract w, rangeInvalid := false } := by
  rw [bitExtractor, h]

theorem bitExtractor_error (h : construct f.toNat t.toNat = .error e) :
    bitExtractor w f t sel = { field := Config.extractorInvalid w f t sel, rangeInvalid := true } := by
  rw [bitExtractor, h]

theorem bitInserter_ok (h : construct f.toNat t.toNat = .ok d) :
    bitInserter v w f t = { wordOut := d.insert v w, rangeInvalid := false } := by
  rw [bitInserter, h]

theorem bitInserter_error (h : construct f.toNat t.toNat = .error e) :
    bitInserter v w f t = { wordOut := Config.inserterInvalid v w f t, rangeInvalid := true } := by
  rw [bitInserter, h]

end

/-- `range_invalid` of the extractor is 1 exactly for a reversed range (R27). -/
theorem bitExtractor_rangeInvalid (w : Word) (f t : BitVec 5) (sel : Bool) :
    (bitExtractor w f t sel).rangeInvalid = true ↔ t < f := by
  rcases construct_ports f t with ⟨hlt, d, hd⟩ | ⟨hlt, he⟩
  · simp [bitExtractor_ok hd, hlt]
  · simp [bitExtractor_error he, hlt]

/-- `range_invalid` of the inserter is 1 exactly for a reversed range (R28). -/
theorem bitInserter_rangeInvalid (v w : Word) (f t : BitVec 5) :
    (bitInserter v w f t).rangeInvalid = true ↔ t < f := by
  rcases construct_ports f t with ⟨hlt, d, hd⟩ | ⟨hlt, he⟩
  · simp [bitInserter_ok hd, hlt]
  · simp [bitInserter_error he, hlt]

/-- `width_invalid` is 1 exactly for the widths 0 and 1 (R29). -/
theorem signExtender_widthInvalid (field : Word) (width : BitVec 6) :
    (signExtender field width).widthInvalid = true ↔ width ≤ 1 := by
  have hle : (width.toNat : Int) ≤ 1 ↔ width ≤ 1 := by
    rw [BitVec.le_def]
    exact Int.ofNat_le (n := 1)
  rw [← hle]
  by_cases h : (width.toNat : Int) ≤ 1
  · rw [signExtender, signExtend_of_le_one field h]
    exact iff_of_true rfl h
  · rw [signExtender, signExtend_of_one_lt field (Int.not_le.1 h)]
    exact iff_of_false Bool.false_ne_true h

/-- The formula of R90 with a width given as a natural number, its sign bit read as a bit of the Word (R91). -/
theorem signExtend_natCast (field : Word) {n : Nat} (hn : 2 ≤ n) :
    signExtend field n =
      .ok (if field.getLsbD (n - 1) then (field.toNat : Int) - 2 ^ n else (field.toNat : Int)) := by
  rw [signExtend_of_one_lt field (by omega), Int.toNat_natCast, BitVec.testBit_toNat]

end Sys2Proof.Machine
end

section
/-! The statements about the codec that are left: its constants, round trips, signed reads and ports
(spec/40_bitfield_codec.md R81, R82, R87 to R96; spec/10_state.md R27 to R29). -/

namespace Sys2Proof.Machine

/-- Settles O2: the masks and sign_bit bit by bit, comp as twice sign_bit. -/
theorem derivedConstantsSelectTheField : Obligations.DerivedConstantsSelectTheField := fun d =>
  ⟨rfl, d.fieldWidth_pos, d.fieldWidth_le, d.mask_getLsbD, d.maskComp_getLsbD, d.signBit_getLsbD, rfl,
    d.comp_eq_two_mul_signBit⟩

/-- Settles O5: a value and its remainder modulo 2^field_width have the same low bits. -/
theorem insertTruncatesSilently : Obligations.InsertTruncatesSilently := by
  intro d v w
  refine BitField.insert_congr_value w fun k hk => ?_
  have hk32 : k < 32 := Nat.lt_of_lt_of_le hk d.fieldWidth_le
  rw [BitVec.getLsbD_ofNat, Nat.testBit_mod_two_pow, BitVec.testBit_toNat, decide_eq_true hk32, decide_eq_true hk,
    Bool.true_and, Bool.true_and]

/-- Settles O6: `extract` reads the low bits that `insert` wrote, and a field's own value writes the same bits back. -/
theorem insertThenExtractReturnsTheValue : Obligations.InsertThenExtractReturnsTheValue := by
  refine fun d v w => ⟨d.extract_insert_toNat v w, fun hfit => ?_, d.insert_extract w⟩
  apply BitVec.eq_of_toNat_eq
  rw [BitField.extract_insert_toNat, Nat.mod_eq_of_lt hfit]

/-- Settles O7: `insert` does not see the field's old content and touches no other bit. -/
theorem insertIsLocalAndIdempotent : Obligations.InsertIsLocalAndIdempotent := fun d v v' w =>
  ⟨d.insert_and_maskComp v w, d.insert_insert v w v, d.insert_insert v w v',
    fun _ h => BitField.insert_comm v w h v'⟩

/-- Settles O8: the inserted field is the integer in two's complement at the field's width. -/
theorem signedValuesSurviveInsertAndExtract : Obligations.SignedValuesSurviveInsertAndExtract := by
  intro d n w hlo hhi
  rw [BitField.extractSigned_eq_toInt]
  exact d.toInt_bits_insert_word w hlo hhi

/-- Settles O9: `extract_signed` is the value of the field in two's complement, and all else follows from that. -/
theorem extractSignedIsTwosComplement : Obligations.ExtractSignedIsTwosComplement := by
  intro d w
  refine ⟨?_, ?_, d.extractSigned_emod w, d.word_extractSigned_getLsbD w, BitField.extractSigned_oneBit w,
    BitField.extractSigned_full w, BitField.signExtend_extract w, fun h => ?_⟩
  · rw [BitField.extractSigned_eq_toInt]
    exact BitVec.le_toInt _
  · rw [BitField.extractSigned_eq_toInt]
    exact BitVec.toInt_lt
  · rw [h]
    exact signExtend_of_le_one _ le_rfl

/-- Settles O1: construct is its one comparison chain. -/
theorem constructAcceptsLegalRangesOnly : Obligations.ConstructAcceptsLegalRangesOnly := by
  refine fun f t => ⟨fun h => ⟨_, construct_of_legal h, ?_, ?_⟩, construct_of_illegal⟩
  · exact Int.toNat_of_nonneg h.1
  · exact Int.toNat_of_nonneg (h.1.trans h.2.1)

/-- Settles O11: the formula reads one bit of the Word, which is clear above bit 31. -/
theorem signExtendOutsideItsDomain : Obligations.SignExtendOutsideItsDomain := by
  refine fun field n hn => ⟨fun _ _ hbit => ?_, fun _ _ hbit => ?_, fun h33 => ?_⟩
  · rw [signExtend_natCast field hn, hbit]
    rfl
  · rw [signExtend_natCast field hn, hbit]
    rfl
  · rw [signExtend_natCast field hn, BitVec.getLsbD_of_ge field _ (by omega)]
    rfl

/-- Settles O12: a port's range is legal unless it is reversed, and then the unit carries the codec's function. -/
theorem codecPortsCarryTheFunctions : Obligations.CodecPortsCarryTheFunctions := by
  refine ⟨fun w v f t sel => ⟨bitExtractor_rangeInvalid w f t sel, bitInserter_rangeInvalid v w f t, fun d hd => ?_⟩,
    fun field width => ⟨signExtender_widthInvalid field width, fun v => signExtender_result⟩⟩
  rw [bitExtractor_ok hd, bitExtractor_ok hd, bitInserter_ok hd]
  exact ⟨rfl, rfl, rfl⟩

end Sys2Proof.Machine
end

section
/-! SUPPORT. The decoder and the encoder of the spec's layout (spec/30_encoding.md R60 to R69): which op numbers name an
opcode, what each field of a decoded word holds, and the bits that the encoder writes. -/

namespace Sys2Proof.Machine

/-! The opcode numbers (R62, R68). -/

theorem Opcode.ofNumber_number (op : Opcode) : Opcode.ofNumber op.number = some op := by
  cases op <;> rfl

/-- The numbers that name no opcode (R68). -/
theorem Opcode.ofNumber_eq_none {n : Nat} (h : n = 4 ∨ 8 ≤ n) : Opcode.ofNumber n = none := by
  rcases h with rfl | h
  · rfl
  · obtain ⟨k, rfl⟩ := Nat.exists_eq_add_of_le' h
    rfl

/-- The numbers that name an opcode (R62). -/
theorem Opcode.exists_ofNumber {n : Nat} (h : n ∈ [0, 1, 2, 3, 5, 6, 7]) : ∃ op, Opcode.ofNumber n = some op := by
  simp only [List.mem_cons, List.not_mem_nil, or_false] at h
  rcases h with rfl | rfl | rfl | rfl | rfl | rfl | rfl <;> exact ⟨_, rfl⟩

@[simp] theorem Instr.fields_ofFields (op : Opcode) (f : Fields) : (Instr.ofFields op f).fields = f := by
  cases op <;> rfl

@[simp] theorem Instr.op_ofFields (op : Opcode) (f : Fields) : (Instr.ofFields op f).op = op := by
  cases op <;> rfl

@[simp] theorem Instr.ofFields_op_fields (i : Instr) : Instr.ofFields i.op i.fields = i := by
  cases i <;> rfl

/-! The decoder (R66). -/

/-- The fields that the decoder reads from a word, each from its own bits (R60, R63 to R65). -/
def fieldsOf (w : Word) : Fields :=
  { cond := condField.bits w
    target := targetField.bits w
    src1 := src1Field.bits w
    src2 := src2Field.bits w
    offset := (offsetField.bits w).toInt }

theorem fieldsOf_eq_extract (w : Word) :
    fieldsOf w =
      { cond := (condField.extract w).setWidth 4
        target := (targetField.extract w).setWidth 4
        src1 := (src1Field.extract w).setWidth 4
        src2 := (src2Field.extract w).setWidth 4
        offset := offsetField.extractSigned w } := by
  rw [fieldsOf, BitField.extractSigned_eq_toInt, ← BitField.setWidth_extract, ← BitField.setWidth_extract,
    ← BitField.setWidth_extract, ← BitField.setWidth_extract]
  rfl

/-- A word decodes to the instruction that its op field names, with the fields of its other bits, and to no other. -/
theorem decode_eq_ok_iff {w : Word} {i : Instr} :
    decode w = .ok i ↔ Opcode.ofNumber (opField.bits w).toNat = some i.op ∧ i.fields = fieldsOf w := by
  rw [decode_eq, BitField.extract_toNat_eq_bits, ← fieldsOf_eq_extract]
  cases Opcode.ofNumber (opField.bits w).toNat with
  | none => simp
  | some op =>
    constructor
    · intro h
      cases h
      simp
    · rintro ⟨hop, hf⟩
      cases hop
      simp [← hf]

/-- A word whose op field names no opcode is refused, and the failure names the word (R68). -/
theorem decode_eq_error {w : Word} (h : Opcode.ofNumber (opField.bits w).toNat = none) :
    decode w = .error (.invalidOpcode w) := by
  rw [decode_eq, BitField.extract_toNat_eq_bits, h]

/-! The encoder (R67). -/

theorem encode_eq (i : Instr) :
    encode i =
      opField.insert (BitVec.ofNat 32 i.op.number) (condField.insert (i.fields.cond.setWidth 32)
        (targetField.insert (i.fields.target.setWidth 32) (src1Field.insert (i.fields.src1.setWidth 32)
          (src2Field.insert (i.fields.src2.setWidth 32) (offsetField.insert (word i.fields.offset) 0))))) := rfl

/-- The op field of an encoded instruction holds its opcode's number (R62, R67). -/
theorem toNat_opBits_encode (i : Instr) : (opField.bits (encode i)).toNat = i.op.number := by
  rw [encode_eq, BitField.bits_insert]
  cases i <;> rfl

/-- The fields of an encoded instruction are its own (R67): each insert is read back by its own field and leaves the
others. -/
theorem fieldsOf_encode {i : Instr} (h : i.wf) : fieldsOf (encode i) = i.fields := by
  rw [fieldsOf, encode_eq]
  simp (disch := decide) only [BitField.bits_insert_of_disjoint]
  exact (Fields.mk.injEq ..).mpr
    ⟨condField.bits_insert_setWidth _ _, targetField.bits_insert_setWidth _ _, src1Field.bits_insert_setWidth _ _,
      src2Field.bits_insert_setWidth _ _, offsetField.toInt_bits_insert_word _ h.1 (Int.lt_of_le_sub_one h.2)⟩

/-! Words and their fields (R60, R69). -/

/-- Words that agree below bit 31 have the same op field and the same fields (R69). -/
theorem opBits_fieldsOf_congr {w w' : Word} (h : ∀ k, k < 31 → w'.getLsbD k = w.getLsbD k) :
    opField.bits w' = opField.bits w ∧ fieldsOf w' = fieldsOf w := by
  have hb : ∀ d : BitField, d.toBit < 31 → d.bits w' = d.bits w := fun d hd =>
    BitField.bits_congr fun k _ hk => h k (by omega)
  refine ⟨hb _ (by decide), ?_⟩
  rw [fieldsOf, hb condField (by decide), hb targetField (by decide), hb src1Field (by decide),
    hb src2Field (by decide), hb offsetField (by decide)]
  rfl

/-- The op field, the fields and bit 31 make up a word (R60). -/
theorem eq_of_fieldsOf_eq {w w' : Word} (hop : opField.bits w' = opField.bits w) (hf : fieldsOf w' = fieldsOf w)
    (h31 : w'.getLsbD 31 = w.getLsbD 31) : w' = w := by
  obtain ⟨hcond, htarget, hsrc1, hsrc2, hoffset⟩ := (Fields.mk.injEq ..).mp hf
  apply BitVec.eq_of_getLsbD_eq
  intro k hk
  rcases Nat.lt_or_ge k 10 with h | h
  · exact BitField.getLsbD_of_bits_eq (BitVec.eq_of_toInt_eq hoffset) (Nat.zero_le k) (Nat.le_of_lt_succ h)
  rcases Nat.lt_or_ge k 14 with h' | h'
  · exact BitField.getLsbD_of_bits_eq (d := src2Field) hsrc2 h (Nat.le_of_lt_succ h')
  rcases Nat.lt_or_ge k 18 with h | h
  · exact BitField.getLsbD_of_bits_eq (d := src1Field) hsrc1 h' (Nat.le_of_lt_succ h)
  rcases Nat.lt_or_ge k 22 with h' | h'
  · exact BitField.getLsbD_of_bits_eq (d := targetField) htarget h (Nat.le_of_lt_succ h')
  rcases Nat.lt_or_ge k 26 with h | h
  · exact BitField.getLsbD_of_bits_eq (d := condField) hcond h' (Nat.le_of_lt_succ h)
  rcases Nat.lt_or_ge k 31 with h' | h'
  · exact BitField.getLsbD_of_bits_eq hop h (Nat.le_of_lt_succ h')
  · rwa [show k = 31 by omega]

/-- A decoded offset is one that the encoding can hold (R65). -/
theorem fieldsOf_wf (w : Word) : (fieldsOf w).wf := by
  refine ⟨BitVec.le_toInt (offsetField.bits w), Int.le_of_lt_add_one ?_⟩
  exact BitVec.toInt_lt (x := offsetField.bits w)

/-- What a word decodes to has the number of its op field and the fields of its other bits. -/
theorem decode_ok {w : Word} {i : Instr} (h : decode w = .ok i) :
    i.op.number = (opField.bits w).toNat ∧ i.fields = fieldsOf w := by
  obtain ⟨hop, hf⟩ := decode_eq_ok_iff.1 h
  exact ⟨specOpcodes.agree _ _ hop, hf⟩

/-- The observer ports carry the fields of an instruction in the widths of the spec's layout (R30). -/
theorem eventPorts_record (a w : Word) (i : Instr) :
    eventPorts { pcAddr := a, instrWord := w, instr := i.record } =
      { pcAddr := a, instrWord := w, cond := i.fields.cond, op := BitVec.ofNat 5 i.op.number,
        target := i.fields.target, src1 := i.fields.src1, src2 := i.fields.src2,
        offset := BitVec.ofInt 10 i.fields.offset } := by
  have hcut : ∀ x : BitVec 4, (x.setWidth 32).setWidth 4 = x := fun x => by
    rw [BitVec.setWidth_setWidth_of_le x (by decide), BitVec.setWidth_eq]
  exact (EventPorts.mk.injEq ..).mpr ⟨rfl, rfl, hcut _, rfl, hcut _, hcut _, hcut _, rfl⟩

end Sys2Proof.Machine
end

section
/-! The statements about the decoder and the encoder (spec/30_encoding.md). -/

namespace Sys2Proof.Machine

/-- Settles O13: the op field of the encoded word holds the number of the opcode, which names it, and every other field
is read back by itself. -/
theorem decodeEncodeRoundTrip : Obligations.DecodeEncodeRoundTrip := by
  intro i hi
  rw [decode_eq_ok_iff, toNat_opBits_encode, fieldsOf_encode hi]
  exact ⟨Opcode.ofNumber_number i.op, rfl⟩

/-- Settles O14: the encoded instruction has the word's op field and fields, and bit 31 is 0 in both words. -/
theorem encodeDecodeRoundTrip : Obligations.EncodeDecodeRoundTrip := by
  intro w i h
  obtain ⟨hop, hf⟩ := decode_ok h
  have hwf : i.wf := by
    rw [Instr.wf, hf]
    exact fieldsOf_wf w
  have hlow : ∀ k, k < 31 → (w &&& 0x7FFFFFFF).getLsbD k = w.getLsbD k := fun k hk => by
    have hone : ∀ k, k < 31 → (0x7FFFFFFF : Word).getLsbD k = true := by decide
    rw [BitVec.getLsbD_and, hone k hk, Bool.and_true]
  obtain ⟨hop', hf'⟩ := opBits_fieldsOf_congr hlow
  refine ⟨hwf, eq_of_fieldsOf_eq ?_ ?_ ?_⟩
  · rw [hop']
    exact BitVec.eq_of_toNat_eq ((toNat_opBits_encode i).trans hop)
  · rw [fieldsOf_encode hwf, hf, hf']
  · have hzero : (0x7FFFFFFF : Word).getLsbD 31 = false := by decide
    rw [BitVec.getLsbD_and, hzero, Bool.and_false]
    exact encodeWith_reserved i.record

/-- Settles O15: the numbers 4 and 8 to 31 name no opcode, the others do. -/
theorem undefinedOpcodesAreRefused : Obligations.UndefinedOpcodesAreRefused := by
  refine fun w => ⟨fun h => ?_, fun h => decode_eq_error (Opcode.ofNumber_eq_none h)⟩
  obtain ⟨op, hop⟩ := Opcode.exists_ofNumber h
  refine ⟨Instr.ofFields op (fieldsOf w), decode_eq_ok_iff.2 ⟨?_, Instr.fields_ofFields ..⟩⟩
  rw [Instr.op_ofFields]
  exact hop

/-- Settles O16: a decoded field is the bits of its own field, and its port cuts the record back to them. -/
theorem fieldsAreReadFromTheirBits : Obligations.FieldsAreReadFromTheirBits := by
  intro w a i h
  obtain ⟨hop, hf⟩ := decode_ok h
  refine ⟨hop, congrArg Fields.cond hf, congrArg Fields.target hf, congrArg Fields.src1 hf, congrArg Fields.src2 hf,
    congrArg Fields.offset hf, ?_⟩
  have hop5 : BitVec.ofNat 5 (opField.bits w).toNat = w.extractLsb' 26 5 :=
    (BitVec.ofNat_toNat ..).trans (BitVec.setWidth_eq _)
  rw [eventPorts_record, hop, hf, hop5]
  exact congrArg _ BitVec.ofInt_toInt

/-- Settles O17: no field that the decoder reads holds bit 31. -/
theorem reservedBitDoesNotMatter : Obligations.ReservedBitDoesNotMatter := by
  intro w w' i hlow h
  obtain ⟨hop, hf⟩ := opBits_fieldsOf_congr hlow
  rw [decode_eq_ok_iff, hop, hf]
  exact decode_eq_ok_iff.1 h

/-- Settles O18: the words of the spec's vectors, evaluated. -/
theorem writtenOutWordsDecode : Obligations.WrittenOutWordsDecode := by
  refine ⟨?_, ?_, ?_, ?_, ?_, ?_, ?_, ?_, ?_, ?_, ?_, ?_, ?_, ?_, ?_, ?_, ?_⟩ <;> decide

end Sys2Proof.Machine
end

section
/-! SUPPORT. What an instruction and its commit do, by what they answer (spec/41_sequencer.md R117 to R126): the next
states, the failures, and the states that either leaves. -/

namespace Sys2Proof.Machine

/-! Taking a failure (R160). -/

section
variable {F Op : Type} {e e' : Failure} {s t : State F Op}

theorem raise_eq_failure : raise e s = .fault (.failure e' t) ↔ e' = e ∧ t = s.latch e := by
  simp [raise, eq_comm]

end

/-! Sub-step 7 (R122). -/

/-- The next states that sub-step 7 can answer. -/
theorem commitAs_next {F Op : Type} {k : CommitKind} {r : RegIdx} {v : Word} {s t : State F Op}
    (h : commitAs k r v s = .next t) :
    (k = .load ∧ s.mem.accepts v = true ∧ t = s.writeReg r (s.mem.wordAt v.toNat)) ∨
    (k = .store ∧ s.mem.accepts v = true ∧ t = s.setMem (s.mem.place v (s.readReg r))) ∨
    (k = .halt ∧ t = s.commitHalt) ∨
    (k = .other ∧ t = s.writeReg r v) := by
  rcases commitAs_cases k r v s with ⟨hk, ha, hc⟩ | ⟨hk, ha, hc⟩ | ⟨-, -, hc⟩ | ⟨hk, hc⟩ | ⟨hk, hc⟩ <;>
    cases hc.symm.trans h
  · exact .inl ⟨hk, ha, rfl⟩
  · exact .inr (.inl ⟨hk, ha, rfl⟩)
  · exact .inr (.inr (.inl ⟨hk, rfl⟩))
  · exact .inr (.inr (.inr ⟨hk, rfl⟩))

/-! One instruction (R112). -/

section
variable {i : Instr} {s t : State}

/-- The state in which an executed instruction commits: the pc advanced, the flags the ALU's (R120, R121). -/
def beforeCommit (i : Instr) (s : State) : State := s.advancePc.setCond (aluFlags defaultAlu i.op i.fields s)

/-- Where its predicate passes, an instruction is the commit of its opcode's class (R122). -/
theorem exec_of_ne (h : s.cond &&& i.fields.cond ≠ 0) :
    exec i s =
      commitAs i.op.kind i.fields.target (aluResult defaultAlu i.op i.fields s) (beforeCommit i s) := by
  rw [exec_is_cycle, cycle_of_ne h]
  rfl

/-- The states that an instruction leaves, whether it completes or fails (R118, R122). -/
theorem exec_leaves (h : leaves (exec i s) t) :
    (s.cond &&& i.fields.cond = 0 ∧ t = s.advancePc) ∨
    (s.cond &&& i.fields.cond ≠ 0 ∧
      leaves (commitAs i.op.kind i.fields.target (aluResult defaultAlu i.op i.fields s) (beforeCommit i s)) t) := by
  by_cases hp : s.cond &&& i.fields.cond = 0
  · rw [exec_of_eq hp, leaves_next] at h
    exact .inl ⟨hp, h⟩
  · rw [exec_of_ne hp] at h
    exact .inr ⟨hp, h⟩

/-- The next states that an instruction can answer (R118, R123 to R126). -/
theorem exec_next (h : exec i s = .next t) :
    (s.cond &&& i.fields.cond = 0 ∧ t = s.advancePc) ∨
    (s.cond &&& i.fields.cond ≠ 0 ∧
      ((i.op = .load ∧ s.mem.accepts (aluResult defaultAlu i.op i.fields s) = true ∧
          t = (beforeCommit i s).writeReg i.fields.target
            (s.mem.wordAt (aluResult defaultAlu i.op i.fields s).toNat)) ∨
        (i.op = .store ∧ s.mem.accepts (aluResult defaultAlu i.op i.fields s) = true ∧
          t = (beforeCommit i s).setMem (s.mem.place (aluResult defaultAlu i.op i.fields s)
            (s.advancePc.readReg i.fields.target))) ∨
        (i.op = .halt ∧ t = (beforeCommit i s).commitHalt) ∨
        (i.op.kind = .other ∧
          t = (beforeCommit i s).writeReg i.fields.target (aluResult defaultAlu i.op i.fields s)))) := by
  by_cases hp : s.cond &&& i.fields.cond = 0
  · rw [exec_of_eq hp] at h
    cases h
    exact .inl ⟨hp, rfl⟩
  · rw [exec_of_ne hp] at h
    have hc := commitAs_next h
    rw [Opcode.kind_load, Opcode.kind_store, Opcode.kind_halt] at hc
    exact .inr ⟨hp, hc⟩

/-- The only failure of an instruction is that of a LOAD's or STORE's access, after the pc advance and the flags
replacement (R124, R125, R168). -/
theorem exec_failure {e : Failure} (h : exec i s = .fault (.failure e t)) :
    (i.op = .load ∨ i.op = .store) ∧ s.cond &&& i.fields.cond ≠ 0 ∧
      s.mem.accepts (aluResult defaultAlu i.op i.fields s) = false ∧
      e = .memoryFault (aluResult defaultAlu i.op i.fields s) ∧ t = (beforeCommit i s).latch e := by
  rcases exec_cases i s with ⟨-, hc⟩ | ⟨he, ⟨-, -, hc⟩ | ⟨-, -, hc⟩ | ⟨ho, ha, hc⟩ | ⟨-, hc⟩ | ⟨-, hc⟩⟩ <;>
    cases hc.symm.trans h
  exact ⟨ho, (s.executes_iff _).1 he, ha, rfl, rfl⟩

end

end Sys2Proof.Machine
end

section
/-! SUPPORT. The invariant (R19, R111, R142): each operation on the state keeps it, so an instruction, a step and an
action of the host do. -/

namespace Sys2Proof.Machine

/-! The flags (R142). -/

/-- The flags of a result are one of M, Z and P (R142). -/
theorem ruleFlags_cases (r : Word) : ruleFlags r = 1 ∨ ruleFlags r = 2 ∨ ruleFlags r = 4 := by
  unfold ruleFlags
  split
  · exact .inl rfl
  · split
    · exact .inr (.inl rfl)
    · exact .inr (.inr rfl)

/-- The flags of the default ALU are those of its result, but for a DIV by zero, which gives V (R142, R149). -/
theorem defaultAlu_flags (op : Opcode) (l r : Word) :
    (defaultAlu op l r).2 = if op = .div ∧ r = 0 then 8 else ruleFlags (defaultAlu op l r).1 := by
  cases op with
  | add | sub | mul | load | store => exact flagsOf_spec _
  | halt =>
    rw [if_neg fun h => nomatch h.1]
    exact flagsOf_spec 0
  | div =>
    by_cases hr : r = 0
    · rw [if_pos ⟨rfl, hr⟩, hr]
      rfl
    · rw [if_neg fun h => hr h.2, defaultAlu_div hr]

/-- The default ALU gives exactly one flag, and V for a DIV by zero alone (R142, R149). -/
theorem defaultAlu_flags_cases (op : Opcode) (l r : Word) :
    ((defaultAlu op l r).2 = 1 ∨ (defaultAlu op l r).2 = 2 ∨ (defaultAlu op l r).2 = 4 ∨ (defaultAlu op l r).2 = 8) ∧
      ((defaultAlu op l r).2 = 8 ↔ op = .div ∧ r = 0) := by
  rw [defaultAlu_flags]
  by_cases hv : op = .div ∧ r = 0
  · rw [if_pos hv]
    exact ⟨by decide, iff_of_true rfl hv⟩
  · rw [if_neg hv]
    rcases ruleFlags_cases (defaultAlu op l r).1 with h | h | h <;> rw [h] <;>
      exact ⟨by decide, iff_of_false (by decide) hv⟩

theorem legalCond_defaultAlu (op : Opcode) (l r : Word) : legalCond (defaultAlu op l r).2 := by
  obtain ⟨h1 | h2 | h4 | h8, -⟩ := defaultAlu_flags_cases op l r
  · exact .inr (.inl h1)
  · exact .inr (.inr (.inl h2))
  · exact .inr (.inr (.inr (.inl h4)))
  · exact .inr (.inr (.inr (.inr h8)))

namespace State.Inv
variable {s t : State}

/-! What the invariant says of the latch and the control bits (R19, R111). -/

theorem fault_eq_none (h : s.Inv) (hr : s.running = true) : s.fault = none := by
  by_contra hf
  simpa [hr] using (h.latchedIdle hf).1

/-- In a state that meets the invariant `halted` alone says that a run has completed (R127). -/
theorem completed_iff (h : s.Inv) : s.completed ↔ s.halted = true := by
  refine ⟨fun hc => hc.1, fun hh => ⟨hh, ?_, ?_⟩⟩
  · exact Bool.eq_false_iff.2 fun hr => h.notBoth ⟨hr, hh⟩
  · by_contra hf
    simpa [hh] using (h.latchedIdle hf).2

/-! The operations that keep it. -/

/-- The invariant speaks of the memory, the control bits, the latch and the flags alone. -/
theorem congr (h : s.Inv) (hm : t.mem = s.mem) (hr : t.running = s.running) (hh : t.halted = s.halted)
    (hf : t.fault = s.fault) (hc : t.cond = s.cond) : t.Inv where
  memWf := hm ▸ h.memWf
  notBoth := hr ▸ hh ▸ h.notBoth
  latchedIdle := hf ▸ hr ▸ hh ▸ h.latchedIdle
  latchKind := hf ▸ h.latchKind
  condLegal := hc ▸ h.condLegal

theorem advancePc (h : s.Inv) : s.advancePc.Inv := h.congr rfl rfl rfl rfl rfl

theorem notify (h : s.Inv) (w : Word) (d : Decoded) : (s.notify w d).Inv := h.congr rfl rfl rfl rfl rfl

theorem writeReg (h : s.Inv) (r : RegIdx) (v : Word) : (s.writeReg r v).Inv :=
  h.congr (by simp) (by simp) (by simp) (by simp) (by simp)

theorem setCond (h : s.Inv) {c : Flags} (hc : legalCond c) : (s.setCond c).Inv := { h with condLegal := hc }

theorem setMem (h : s.Inv) {m : Memory} (hm : m.wf) : (s.setMem m).Inv := { h with memWf := hm }

/-- A HALT commits only while Running, when nothing is latched (R111, R126). -/
theorem commitHalt (h : s.Inv) (hr : s.running = true) : s.commitHalt.Inv where
  memWf := h.memWf
  notBoth := by simp
  latchedIdle hf := absurd (h.fault_eq_none hr) hf
  latchKind := h.latchKind
  condLegal := h.condLegal

/-- A failure of the machine's own ends a step only while `halted` is 0 (R111, R161, R168). -/
theorem latch (h : s.Inv) (hh : s.halted = false) {e : Failure} (he : e.code = 3 ∨ e.code = 4) : (s.latch e).Inv where
  memWf := h.memWf
  notBoth := by simp
  latchedIdle _ := ⟨rfl, hh⟩
  latchKind := by
    rintro f ⟨⟩
    exact he
  condLegal := h.condLegal

theorem hostStop (h : s.Inv) : (hostStop s).Inv where
  memWf := h.memWf
  notBoth := by simp
  latchedIdle hf := ⟨rfl, (h.latchedIdle hf).2⟩
  latchKind := h.latchKind
  condLegal := h.condLegal

end State.Inv

/-- The machine's construction with a memory in its canonical form meets the invariant (R26, R190). -/
theorem hostConnect_inv {m : Memory} (hm : m.wf) : (hostConnect m).Inv where
  memWf := hm
  notBoth := by simp
  latchedIdle hf := absurd rfl hf
  latchKind := nofun
  condLegal := .inl rfl

/-- A commit while Running keeps the invariant, whether it completes or fails (R122). -/
theorem commitAs_leaves_inv {k : CommitKind} {r : RegIdx} {v : Word} {s t : State} (hs : s.Inv)
    (hr : s.isRunning = true) (h : leaves (commitAs k r v s) t) : t.Inv := by
  obtain ⟨hrun, hh⟩ := State.isRunning_iff.1 hr
  rcases commitAs_leaves h with ⟨-, -, rfl⟩ | ⟨-, ha, rfl⟩ | ⟨-, -, rfl⟩ | ⟨-, rfl⟩ | ⟨-, rfl⟩
  · exact hs.writeReg ..
  · exact hs.setMem (Memory.wf_place _ hs.memWf ha)
  · exact hs.latch hh (.inr rfl)
  · exact hs.commitHalt hrun
  · exact hs.writeReg ..

/-- An instruction run while Running keeps the invariant, whether it completes or fails. -/
theorem exec_leaves_inv {i : Instr} {s t : State} (hs : s.Inv) (hr : s.isRunning = true) (h : leaves (exec i s) t) :
    t.Inv := by
  rcases exec_leaves h with ⟨-, rfl⟩ | ⟨-, hc⟩
  · exact hs.advancePc
  · exact commitAs_leaves_inv (hs.advancePc.setCond (legalCond_defaultAlu ..)) hr hc

/-- A step keeps the invariant, whether it completes or fails (R111, R168). -/
theorem step_leaves_inv {s t : State} (hs : s.Inv) (h : leaves (step s) t) : t.Inv := by
  obtain ⟨hr, ⟨e, hfail, -, rfl⟩ | ⟨w, i, -, -, -, hi⟩⟩ := step_leaves h
  · refine hs.latch (State.isRunning_iff.1 hr).2 ?_
    rcases hfail with hf | ⟨w, -, hd⟩
    · rw [Memory.read_error hf]
      exact .inr rfl
    · rw [decode_error hd]
      exact .inl rfl
  · exact exec_leaves_inv (hs.notify w i.record) hr hi

/-- An action of the host keeps the invariant (R195). -/
theorem act_next_inv {a : HostAction} {s t : State} (hs : s.Inv) (h : act a s = .next t) : t.Inv := by
  rcases act_next h with ⟨-, rfl⟩ | ⟨b, -, ⟨-, rfl⟩ | ⟨-, hf, rfl⟩⟩ | ⟨-, rfl⟩ | ⟨b, v, -, -, ha, rfl⟩ |
    ⟨ls, -, rfl, -⟩ | ⟨-, rfl⟩ | ⟨-, hstep⟩
  · exact hostConnect_inv hs.memWf
  · exact hs
  · exact { hs with notBoth := by simp, latchedIdle := fun hne => absurd hf hne }
  · exact hs.hostStop
  · exact hs.setMem (Memory.wf_place v hs.memWf ha)
  · exact hs.congr rfl rfl rfl rfl rfl
  · exact hs
  · exact step_leaves_inv hs (.inl hstep)

/-- A failed step has latched its failure (R168). -/
theorem step_failure_latched {s t : State} {r : Failure} (h : step s = .fault (.failure r t)) : t.fault = some r := by
  obtain ⟨-, ⟨e, -, hs, -⟩ | ⟨w, i, -, -, hs, -⟩⟩ := step_leaves (.inr ⟨r, h⟩)
  · obtain ⟨rfl, rfl⟩ := raise_eq_failure.1 (hs.symm.trans h)
    rfl
  · obtain ⟨-, -, -, -, rfl⟩ := exec_failure (hs.symm.trans h)
    rfl

/-- Everything the machine can reach meets the invariant (R111, R195). -/
theorem Reachable.inv {s : State} (h : Reachable s) : s.Inv := by
  induction h with
  | connected m hm => exact hostConnect_inv hm
  | act _ a ha ih => exact act_next_inv ih ha
  | failed _ r hf ih => exact step_leaves_inv ih (.inr ⟨r, hf⟩)

end Sys2Proof.Machine
end

section
/-! The statements about the invariant and the flags (spec/10_state.md section 4, spec/42_instructions.md section 1). -/

namespace Sys2Proof.Machine

/-- Settles O58: a step keeps the invariant whatever state it leaves, and so does each action of the host. -/
theorem stepsKeepTheInvariant : Obligations.StepsKeepTheInvariant :=
  ⟨fun _ _ hs h => step_leaves_inv hs (.inl h),
    fun _ _ r hs h => step_leaves_inv hs (.inr ⟨r, h⟩),
    fun _ _ _ => act_next_inv,
    fun _ => hostConnect_inv⟩

/-- Settles O57: reset is the construction with a memory in which nothing has been placed. -/
theorem resetMeetsTheInvariant : Obligations.ResetMeetsTheInvariant := hostConnect_inv reset_mem_wf

/-- Settles O59: the invariant along every sequence of steps and actions; a failed step has latched its failure, so
the invariant says that it is Idle. -/
theorem reachableStatesMeetTheInvariant : Obligations.ReachableStatesMeetTheInvariant := by
  refine ⟨fun _ => Reachable.inv, fun s t r hs h => ?_⟩
  have hf : t.fault = some r := step_failure_latched h
  obtain ⟨hr, hh⟩ := (step_leaves_inv hs.inv (.inr ⟨r, h⟩)).latchedIdle (by simp [hf])
  refine ⟨?_, hf, ?_⟩
  · rw [State.phase, hh, hr]
    rfl
  · rw [hostOutputs, hf]
    rfl

/-- Settles O37: no commit writes the flags, so they are those of the default ALU. -/
theorem exactlyOneFlagAfterExecution : Obligations.ExactlyOneFlagAfterExecution := by
  intro i s t hp h
  rw [exec_is_cycle] at h
  have hc := cycle_leaves_cond h
  rw [if_neg hp, aluFlags_eq] at hc
  rw [hc]
  exact defaultAlu_flags_cases ..

end Sys2Proof.Machine
end

section
/-! SUPPORT. The results of the executed instructions (spec/42_instructions.md sections 3 and 4): the target, the pc and
the flags after the commit, and the ALU's sums and quotients over the integers. -/

namespace Sys2Proof.Machine

/-! The ALU over the integers (R7, R141). -/

/-- A sum of two registers and an offset, modulo 2^32 (R141). -/
theorem add_eq_ofInt (x y : Word) (k : Int) : x + (y + word k) = BitVec.ofInt 32 (x.toNat + y.toNat + k) := by
  simp [BitVec.ofInt_add, BitVec.add_assoc]

/-- The offset of a difference is added to the second register first (R147). -/
theorem sub_eq_ofInt (x y : Word) (k : Int) : x - (y + word k) = BitVec.ofInt 32 (x.toNat - (y.toNat + k)) := by
  simp [BitVec.ofInt_add, BitVec.ofInt_neg, BitVec.sub_eq_add_neg, Int.sub_eq_add_neg]

/-- A product modulo 2^32 of registers read unsigned (R148). -/
theorem mul_eq_ofInt (x y : Word) (k : Int) : x * (y + word k) = BitVec.ofInt 32 (x.toNat * (y.toNat + k)) := by
  simp [BitVec.ofInt_add, BitVec.ofInt_mul]

/-- A product modulo 2^32 of registers read signed (R148). -/
theorem mul_eq_ofInt_signed (x y : Word) (k : Int) :
    x * (y + word k) = BitVec.ofInt 32 (signed x * (signed y + k)) := by
  simp [BitVec.ofInt_add, BitVec.ofInt_mul]

/-- A quotient rounded toward minus infinity leaves a remainder with the sign of the divisor (R149). -/
theorem fdiv_remainder (n d : Int) (hd : d ≠ 0) :
    n = n.fdiv d * d + n.fmod d ∧ (0 ≤ n.fmod d ∧ n.fmod d < d ∨ d < n.fmod d ∧ n.fmod d ≤ 0) := by
  refine ⟨(Int.fdiv_mul_add_fmod n d).symm, ?_⟩
  rcases Int.lt_or_gt_of_ne hd with h | h
  · have hneg : n.fmod d = -(-n).fmod (-d) := by rw [Int.neg_fmod_neg, neg_neg]
    have hlo := Int.fmod_nonneg_of_pos (-n) (Int.neg_pos_of_neg h)
    have hhi := Int.fmod_lt_of_pos (-n) (Int.neg_pos_of_neg h)
    exact .inr (by omega)
  · exact .inl ⟨Int.fmod_nonneg_of_pos n h, Int.fmod_lt_of_pos n h⟩

/-- A Word is zero where its signed value is. -/
theorem signed_eq_zero {w : Word} : signed w = 0 ↔ w = 0 := by
  rw [← BitVec.toInt_zero (w := 32), BitVec.toInt_inj]
  rfl

/-! Registers (R10 to R12). -/

section
variable {F Op : Type} {s : State F Op} {r q : RegIdx} {v : Word}

/-- A write to another register leaves a register as it is (R10). -/
theorem State.readReg_writeReg_ne (h : q ≠ r) : (s.writeReg r v).readReg q = s.readReg q := by
  rw [State.readReg_writeReg, if_neg h]
  split
  next h0 => rw [h0, s.readReg_zeroReg]
  next => rfl

/-- The value that a STORE commits: 0 for register 0, the advanced pc for register 15 (R125). -/
theorem State.readReg_advancePc_cases (s : State F Op) (r : RegIdx) :
    s.advancePc.readReg r = if r = 0 then 0 else if r = 15 then s.pc + 1 else s.readReg r := by
  split
  next h0 => rw [h0]; exact s.advancePc.readReg_zeroReg
  next => exact s.readReg_advancePc r

end

/-! The memory (R42, R43). -/

section
variable {m : Memory} {a b v : Word}

theorem Memory.accepts_of_lt (h : a.toNat < m.words) : m.accepts a = true := (m.accepts_iff a).2 h

theorem Memory.accepts_of_le (h : m.words ≤ a.toNat) : m.accepts a = false :=
  Bool.eq_false_iff.2 fun ha => Nat.not_lt.2 h ((m.accepts_iff a).1 ha)

theorem Memory.read_of_accepts (h : m.accepts a = true) : m.read a = .ok (m.wordAt a.toNat) := if_pos h

theorem Memory.read_of_rejects (h : m.accepts a = false) : m.read a = .error (.memoryFault a) := by
  simp [Memory.read, h]

theorem Memory.write_of_accepts (h : m.accepts a = true) : m.write a v = .ok (m.place a v) := if_pos h

theorem Memory.write_of_rejects (h : m.accepts a = false) : m.write a v = .error (.memoryFault a) := by
  simp [Memory.write, h]

/-- A word placed at an address that exists is read there (R43). -/
theorem Memory.read_place_same (h : m.accepts a = true) : (m.place a v).read a = .ok v :=
  Memory.read_of_write (Memory.write_of_accepts h)

/-- A word placed at another address is not read (R43). -/
theorem Memory.read_place_ne (h : b ≠ a) : (m.place a v).read b = m.read b := by
  have hne : b.toNat ≠ a.toNat := fun e => h (BitVec.eq_of_toNat_eq e)
  rw [Memory.read, Memory.read, Memory.accepts_place, Memory.wordAt_place, if_neg hne]

end

/-! The executed instruction (R119 to R122). -/

section
variable {i : Instr} {s : State} {v : Word} {c : Flags}

/-- The commit of an executed instruction, from what the ALU gives on its operands (R119 to R122). -/
theorem exec_of_alu (hp : s.cond &&& i.fields.cond ≠ 0)
    (hr : defaultAlu i.op (s.readReg i.fields.src1) (s.readReg i.fields.src2 + word i.fields.offset) = (v, c)) :
    exec i s = commitAs i.op.kind i.fields.target v (s.advancePc.setCond c) := by
  rw [exec_of_ne hp, beforeCommit, aluResult_eq, aluFlags_eq, hr]

/-- A register write of sub-step 7 leaves the target, the pc and the flags as `wrote` says (R11, R12, R123). -/
theorem wrote_writeReg (s : State) (r : RegIdx) (v : Word) (c : Flags) :
    wrote s ((s.advancePc.setCond c).writeReg r v) r v c := by
  refine ⟨?_, State.writeReg_pc .., State.writeReg_cond ..⟩
  rw [State.readReg_writeReg, if_pos rfl]
  rfl

/-- ADD, SUB, MUL and DIV complete with the ALU's result in the target (R123). -/
theorem exists_wrote_of_other (hk : i.op.kind = .other) (hp : s.cond &&& i.fields.cond ≠ 0)
    (hr : defaultAlu i.op (s.readReg i.fields.src1) (s.readReg i.fields.src2 + word i.fields.offset) = (v, c)) :
    ∃ t, exec i s = .next t ∧ wrote s t i.fields.target v c := by
  refine ⟨_, ?_, wrote_writeReg s i.fields.target v c⟩
  rw [exec_of_alu hp hr, hk]
  rfl

end

end Sys2Proof.Machine
end

section
/-! The statements about the results of the instructions (spec/41_sequencer.md R125, spec/42_instructions.md sections 2
to 4). -/

namespace Sys2Proof.Machine

/-- Settles O30: the sum of the words is the sum of the integers modulo 2^32. -/
theorem addResult : Obligations.AddResult := by
  intro f s hp r
  have hr : s.readReg f.src1 + (s.readReg f.src2 + word f.offset) = r := add_eq_ofInt ..
  exact exists_wrote_of_other (i := .add f) rfl hp (hr ▸ defaultAlu_add ..)

/-- Settles O31: the difference of the words is the difference of the integers modulo 2^32. -/
theorem subResult : Obligations.SubResult := by
  intro f s hp r
  have hr : s.readReg f.src1 - (s.readReg f.src2 + word f.offset) = r := sub_eq_ofInt ..
  exact exists_wrote_of_other (i := .sub f) rfl hp (hr ▸ defaultAlu_sub ..)

/-- Settles O32: the product of the words is the product of the integers modulo 2^32, in either reading. -/
theorem mulResult : Obligations.MulResult := by
  intro f s hp r
  have hr : s.readReg f.src1 * (s.readReg f.src2 + word f.offset) = r := mul_eq_ofInt ..
  exact ⟨hr.symm.trans (mul_eq_ofInt_signed ..), exists_wrote_of_other (i := .mul f) rfl hp (hr ▸ defaultAlu_mul ..)⟩

/-- Settles O33: a zero divisor gives V, any other the floor quotient, whose remainder has the divisor's sign. -/
theorem divResult : Obligations.DivResult := by
  intro f s hp n d
  refine ⟨fun hd => exists_wrote_of_other (i := .div f) rfl hp ?_, fun hd => ?_⟩
  · show defaultAlu .div _ (s.readReg f.src2 + word f.offset) = _
    rw [signed_eq_zero.1 hd]
    exact defaultAlu_div_zero _
  · obtain ⟨t, ht, hw⟩ := exists_wrote_of_other (i := .div f) rfl hp (defaultAlu_div (mt signed_eq_zero.2 hd))
    obtain ⟨hq, hm⟩ := fdiv_remainder n d hd
    exact ⟨t, n.fdiv d, n.fmod d, hq, hm, ht, hw⟩

/-- Settles O34: a LOAD whose address exists commits the word there. -/
theorem loadResult : Obligations.LoadResult := by
  intro f s hp a ha
  have hread : s.mem.read a = .ok (s.mem.wordAt a.toNat) := Memory.read_of_accepts (Memory.accepts_of_lt ha)
  have hr : s.readReg f.src1 + (s.readReg f.src2 + word f.offset) = a := add_eq_ofInt ..
  have hc := exec_of_alu (i := .load f) hp (hr ▸ defaultAlu_load ..)
  exact ⟨_, _, hread, hc.trans (commitAs_load_ok (s := s.advancePc.setCond (ruleFlags a)) hread), wrote_writeReg ..⟩

/-- Settles O35: a STORE whose address exists commits the target's value after the pc advance. -/
theorem storeResult : Obligations.StoreResult := by
  intro f s hp a ha
  have hacc : s.mem.accepts a = true := Memory.accepts_of_lt ha
  have hr : s.readReg f.src1 + (s.readReg f.src2 + word f.offset) = a := add_eq_ofInt ..
  have hc := exec_of_alu (i := .store f) hp (hr ▸ defaultAlu_store ..)
  refine ⟨_, hc.trans (commitAs_store_ok (s := s.advancePc.setCond (ruleFlags a)) (Memory.write_of_accepts hacc)), rfl,
    rfl, ?_⟩
  exact (Memory.read_place_same hacc).trans (congrArg _ (s.readReg_advancePc f.target))

/-- Settles O36: the default ALU gives HALT the flags Z. -/
theorem haltResult : Obligations.HaltResult := by
  intro f s hp
  rw [exec_of_alu (i := .halt f) hp (defaultAlu_halt ..)]
  rfl

/-- Settles O28: the commit of a STORE reads its target after the pc advance. -/
theorem storeCommitsTheCurrentValue : Obligations.StoreCommitsTheCurrentValue := by
  intro alu f s hp r v u
  have hc : cycle alu .store f s = commitAs .store f.target r.1 u := cycle_of_ne hp
  have hv : u.readReg f.target = v := s.readReg_advancePc_cases f.target
  refine ⟨fun ha => ?_, fun ha => ?_⟩
  · exact hc.trans (commitAs_store_ok (s := u) (hv ▸ Memory.write_of_accepts (Memory.accepts_of_lt ha)))
  · exact hc.trans (commitAs_store_error (s := u) (Memory.write_of_rejects (Memory.accepts_of_le ha)))

end Sys2Proof.Machine
end

section
/-! SUPPORT. What an instruction leaves unchanged: the registers, the trace and the memory in the states after sub-step
7 (spec/42_instructions.md sections 2 to 4), and the outputs, which no instruction reads (R24). -/

namespace Sys2Proof.Machine

section
variable {i : Instr} {s t : State}

/-! The state in which an instruction commits (R120, R121). -/

theorem readReg_beforeCommit {r : RegIdx} (h : r ≠ pcReg) : (beforeCommit i s).readReg r = s.readReg r :=
  State.readReg_congr_gpr rfl h

/-- A register write of sub-step 7 replaces the advanced pc for register 15 alone (R12). -/
theorem pc_writeReg_beforeCommit (i : Instr) (s : State) (r : RegIdx) (v : Word) :
    ((beforeCommit i s).writeReg r v).pc = if r = 15 then v else s.pc + 1 := State.writeReg_pc ..

/-- A register write of sub-step 7 changes the target and the pc alone. -/
theorem otherRegsSame_writeReg (i : Instr) (s : State) (r : RegIdx) (v : Word) :
    otherRegsSame s ((beforeCommit i s).writeReg r v) r := fun _ hr h15 =>
  (State.readReg_writeReg_ne hr).trans (readReg_beforeCommit h15)

/-- A register write of sub-step 7 leaves the control bits, the latch and the outputs. -/
theorem controlSame_writeReg (i : Instr) (s : State) (r : RegIdx) (v : Word) :
    controlSame s ((beforeCommit i s).writeReg r v) :=
  ⟨State.writeReg_halted .., State.writeReg_running .., State.writeReg_fault .., State.writeReg_trace ..,
    State.writeReg_listeners ..⟩

/-- A register write of sub-step 7 leaves the memory. -/
theorem memSame_writeReg (i : Instr) (s : State) (r : RegIdx) (v : Word) :
    memSame s ((beforeCommit i s).writeReg r v) := fun a =>
  congrArg (Memory.read · a) (State.writeReg_mem (beforeCommit i s) r v)

/-- A skipped instruction leaves every register but the pc. -/
theorem readReg_advancePc_ne {r : RegIdx} (h : r ≠ pcReg) : s.advancePc.readReg r = s.readReg r :=
  State.readReg_congr_gpr rfl h

/-! The memory and the pc (R120, R125). -/

/-- A word written at another address is not read (R43). -/
theorem Memory.read_of_write_ne {m m' : Memory} {a b v : Word} (h : m.write a v = .ok m') (hb : b ≠ a) :
    m'.read b = m.read b := by
  rcases m.write_cases a v with ⟨-, hw⟩ | ⟨-, hw⟩ <;> cases hw.symm.trans h
  exact Memory.read_place_ne hb

/-- A STORE that is executed and completes leaves the memory that its write answers (R125). -/
theorem exec_store_next {f : Fields} (hp : s.cond &&& f.cond ≠ 0) (h : exec (.store f) s = .next t) :
    ∃ m, s.mem.write (aluResult defaultAlu .store f s) (s.advancePc.readReg f.target) = .ok m ∧
      t = (beforeCommit (.store f) s).setMem m := by
  rw [exec_of_ne (i := .store f) hp] at h
  exact commitAs_store_next h

/-- A HALT that is executed completes (R126). -/
theorem exec_halt_of_ne {f : Fields} (hp : s.cond &&& f.cond ≠ 0) :
    exec (.halt f) s = .next (beforeCommit (.halt f) s).commitHalt := exec_of_ne (i := .halt f) hp

theorem Opcode.ne_of_kind_other {op : Opcode} (h : op.kind = .other) : op ≠ .load ∧ op ≠ .store ∧ op ≠ .halt := by
  refine ⟨?_, ?_, ?_⟩ <;> rintro rfl <;> cases h

/-- An executed instruction that commits to a register keeps the advanced pc unless that is register 15. -/
theorem keeps_pc_iff (hp : s.cond &&& i.fields.cond ≠ 0) (hs : i.op ≠ .store) (hh : i.op ≠ .halt) :
    (s.cond &&& i.fields.cond = 0 ∨ i.fields.target ≠ 15 ∨ i.op = .store ∨ i.op = .halt) ↔ i.fields.target ≠ 15 := by
  simp only [hp, hs, hh, false_or, or_false]

/-- Where the next fetch is from: what an executed instruction writes to register 15, else the next address (R12,
R120). -/
theorem exec_next_pc (h : exec i s = .next t) :
    t.pc =
      if s.cond &&& i.fields.cond = 0 ∨ i.fields.target ≠ 15 ∨ i.op = .store ∨ i.op = .halt then s.pc + 1
      else if i.op = .load then s.mem.wordAt (aluResult defaultAlu i.op i.fields s).toNat
      else aluResult defaultAlu i.op i.fields s := by
  rcases exec_next h with ⟨hp, rfl⟩ | ⟨hp, ⟨ho, -, rfl⟩ | ⟨ho, -, rfl⟩ | ⟨ho, rfl⟩ | ⟨ho, rfl⟩⟩
  · rw [if_pos (.inl hp)]
    rfl
  · rw [pc_writeReg_beforeCommit, if_pos ho, if_congr (keeps_pc_iff hp (by simp [ho]) (by simp [ho])) rfl rfl, ite_not]
  · rw [if_pos (.inr (.inr (.inl ho)))]
    rfl
  · rw [if_pos (.inr (.inr (.inr ho)))]
    rfl
  · obtain ⟨hl, hs, hh⟩ := Opcode.ne_of_kind_other ho
    rw [pc_writeReg_beforeCommit, if_neg hl, if_congr (keeps_pc_iff hp hs hh) rfl rfl, ite_not]

/-! The outputs (R24). -/

/-- No instruction writes the trace (R116). -/
theorem exec_leaves_trace (h : leaves (exec i s) t) : t.trace = s.trace := by
  rcases exec_leaves h with ⟨-, rfl⟩ | ⟨-, hc⟩
  · rfl
  · rcases commitAs_leaves hc with ⟨-, -, rfl⟩ | ⟨-, -, rfl⟩ | ⟨-, -, rfl⟩ | ⟨-, rfl⟩ | ⟨-, rfl⟩
    · exact State.writeReg_trace ..
    · rfl
    · rfl
    · rfl
    · exact State.writeReg_trace ..

/-- The state with other outputs (R24). -/
def State.withOutputs (tr : List Event) (ls : List Nat) (s : State) : State := { s with trace := tr, listeners := ls }

/-- Sub-step 7 does not read the outputs. -/
theorem commitAs_withOutputs (k : CommitKind) (r : RegIdx) (v : Word) (s : State) (tr : List Event) (ls : List Nat) :
    commitAs k r v (s.withOutputs tr ls) = mapState (State.withOutputs tr ls) (commitAs k r v s) := by
  cases k with
  | load =>
    rcases s.mem.read_cases v with ⟨-, hr⟩ | ⟨-, hr⟩
    · rw [commitAs_load_ok hr, commitAs_load_ok (s := s.withOutputs tr ls) hr]
      exact congrArg _ (State.writeReg_withOutputs ..)
    · rw [commitAs_load_error hr, commitAs_load_error (s := s.withOutputs tr ls) hr]
      rfl
  | store =>
    rcases s.mem.write_cases v (s.readReg r) with ⟨-, hw⟩ | ⟨-, hw⟩
    · rw [commitAs_store_ok hw, commitAs_store_ok (s := s.withOutputs tr ls) hw]
      rfl
    · rw [commitAs_store_error hw, commitAs_store_error (s := s.withOutputs tr ls) hw]
      rfl
  | halt => rfl
  | other => exact congrArg _ (State.writeReg_withOutputs ..)

/-- No instruction reads the outputs. -/
theorem exec_withOutputs (i : Instr) (s : State) (tr : List Event) (ls : List Nat) :
    exec i (s.withOutputs tr ls) = mapState (State.withOutputs tr ls) (exec i s) := by
  by_cases hp : s.cond &&& i.fields.cond = 0
  · rw [exec_of_eq hp, exec_of_eq (s := s.withOutputs tr ls) hp]
    rfl
  · rw [exec_of_ne hp, exec_of_ne (s := s.withOutputs tr ls) hp]
    exact commitAs_withOutputs _ _ _ (beforeCommit i s) tr ls

/-- `mapState` sees what an outcome leaves and nothing else. -/
theorem mapState_congr {g g' : State → State} {r : Result} (h : ∀ t, leaves r t → g t = g' t) :
    mapState g r = mapState g' r := by
  match r with
  | .next t => exact congrArg Host.Outcome.next (h t (.inl rfl))
  | .fault (.failure f t) => exact congrArg (fun t => Host.Outcome.fault (Fault.failure f t)) (h t (.inr ⟨f, rfl⟩))
  | .fault .notRunning => rfl
  | .refused _ => rfl

/-- The outputs after a step of a state whose outputs were replaced: the new trace, and behind it what the step has
appended. -/
def State.withOutputsAfter (s : State) (tr : List Event) (ls : List Nat) (t : State) : State :=
  t.withOutputs (tr ++ t.trace.drop s.trace.length) ls

/-- A failing fetch or decode appends no event. -/
theorem raise_withOutputs (e : Failure) (s : State) (tr : List Event) (ls : List Nat) :
    raise e (s.withOutputs tr ls) = mapState (s.withOutputsAfter tr ls) (raise e s) := by
  have hdrop : tr ++ s.trace.drop s.trace.length = tr := by rw [List.drop_length, List.append_nil]
  show raise e (s.withOutputs tr ls) = raise e (s.withOutputs (tr ++ s.trace.drop s.trace.length) ls)
  rw [hdrop]

/-- No step reads the outputs; it appends what it would append to any trace (R24). -/
theorem step_withOutputs (s : State) (tr : List Event) (ls : List Nat) :
    step (s.withOutputs tr ls) = mapState (s.withOutputsAfter tr ls) (step s) := by
  rcases step_cases s with ⟨hr, hs⟩ | ⟨hr, e, hf, hs⟩ | ⟨hr, w, e, hf, hd, hs⟩ | ⟨hr, w, i, hf, hd, hs⟩
  · rw [hs]
    exact stepOf_stopped hr
  · rw [hs, ← raise_withOutputs]
    exact stepOf_unfetched hr hf
  · rw [hs, ← raise_withOutputs]
    exact stepOf_undecoded hr hf hd
  · rw [hs, step_decoded (s := s.withOutputs tr ls) hr hf hd]
    let e : Event := { pcAddr := s.pc, instrWord := w, instr := i.record }
    refine (exec_withOutputs i (s.notify w i.record) (tr ++ [e]) ls).trans (mapState_congr fun t ht => ?_)
    have htrace : t.trace = s.trace ++ [e] := exec_leaves_trace ht
    rw [State.withOutputsAfter, htrace, List.drop_left]

end

end Sys2Proof.Machine
end

section
/-! The statements about frames, failures and the whole machine (spec/42_instructions.md, spec/60_exceptions.md section
1, spec/41_sequencer.md sections 2 and 4, spec/20_memory.md section 4, spec/10_state.md section 5). -/

namespace Sys2Proof.Machine

/-- Settles O38: none of the five is a STORE or a HALT, so what is left is the skip and the register write. -/
theorem arithmeticAndLoadFrame : Obligations.ArithmeticAndLoadFrame := by
  intro i s t ho h
  rcases exec_next h with ⟨-, rfl⟩ | ⟨-, ⟨-, -, rfl⟩ | ⟨hs, -, -⟩ | ⟨hh, -⟩ | ⟨-, rfl⟩⟩
  · exact ⟨fun _ _ => readReg_advancePc_ne, ⟨rfl, rfl, rfl, rfl, rfl⟩, fun _ => rfl⟩
  · exact ⟨otherRegsSame_writeReg _ _ _ _, controlSame_writeReg .., memSame_writeReg _ _ _ _⟩
  · simp [hs] at ho
  · simp [hh] at ho
  · exact ⟨otherRegsSame_writeReg _ _ _ _, controlSame_writeReg .., memSame_writeReg _ _ _ _⟩

/-- Settles O39: a STORE is skipped or places one word. -/
theorem storeFrame : Obligations.StoreFrame := by
  intro f s t h
  by_cases hp : s.cond &&& f.cond = 0
  · cases (exec_of_eq (i := .store f) hp).symm.trans h
    exact ⟨fun _ => readReg_advancePc_ne, ⟨rfl, rfl, rfl, rfl, rfl⟩, fun _ _ => rfl, fun _ _ _ _ => rfl⟩
  · obtain ⟨m, hm, rfl⟩ := exec_store_next hp h
    refine ⟨fun _ => readReg_beforeCommit (i := .store f), ⟨rfl, rfl, rfl, rfl, rfl⟩, fun h0 => absurd h0 hp, ?_⟩
    rintro a b rfl
    exact Memory.read_of_write_ne hm

/-- Settles O40: a HALT is skipped or sets the two control bits. -/
theorem haltFrame : Obligations.HaltFrame := by
  intro f s t h
  by_cases hp : s.cond &&& f.cond = 0
  · cases (exec_of_eq (i := .halt f) hp).symm.trans h
    exact ⟨fun _ => readReg_advancePc_ne, fun _ => rfl, rfl, rfl, rfl, fun _ => ⟨rfl, rfl⟩⟩
  · cases (exec_halt_of_ne hp).symm.trans h
    exact ⟨fun _ => readReg_beforeCommit (i := .halt f), fun _ => rfl, rfl, rfl, rfl, fun h0 => absurd h0 hp⟩

/-- Settles O41: the two steps that end before the event. -/
theorem fetchAndDecodeFailures : Obligations.FetchAndDecodeFailures := by
  intro s hr hh
  have hrun : s.isRunning = true := State.isRunning_iff.2 ⟨hr, hh⟩
  refine ⟨fun hpc => ?_, fun w hf hop => ?_⟩
  · exact stepOf_unfetched hrun (Memory.read_of_rejects (Memory.accepts_of_le hpc))
  · exact stepOf_undecoded hrun hf (decode_eq_error (Opcode.ofNumber_eq_none hop))

/-- Settles O42: the commit of a LOAD and of a STORE whose access the memory rejects. -/
theorem dataAccessFailures : Obligations.DataAccessFailures := by
  intro f s hp a ha u
  have hr : s.readReg f.src1 + (s.readReg f.src2 + word f.offset) = a := add_eq_ofInt ..
  have hrej : s.mem.accepts a = false := Memory.accepts_of_le ha
  constructor
  · rw [exec_of_alu (i := .load f) hp (hr ▸ defaultAlu_load ..)]
    exact commitAs_load_error (s := s.advancePc.setCond (ruleFlags a)) (Memory.read_of_rejects hrej)
  · rw [exec_of_alu (i := .store f) hp (hr ▸ defaultAlu_store ..)]
    exact commitAs_store_error (s := s.advancePc.setCond (ruleFlags a)) (Memory.write_of_rejects hrej)

/-- Settles O43: of the ways an instruction can end, one raises, that of a rejected data access. -/
theorem onlyDataAccessesFail : Obligations.OnlyDataAccessesFail := by
  intro i s
  rcases exec_cases i s with ⟨-, hc⟩ | ⟨he, ⟨-, -, hc⟩ | ⟨-, -, hc⟩ | ⟨ho, ha, hc⟩ | ⟨-, hc⟩ | ⟨-, hc⟩⟩
  · exact .inl ⟨_, hc⟩
  · exact .inl ⟨_, hc⟩
  · exact .inl ⟨_, hc⟩
  · refine .inr ⟨ho, (s.executes_iff _).1 he, _, _, ?_, hc, rfl, rfl, rfl⟩
    exact Nat.le_of_not_lt fun hlt => Bool.false_ne_true (ha.symm.trans (Memory.accepts_of_lt hlt))
  · exact .inl ⟨_, hc⟩
  · exact .inl ⟨_, hc⟩

/-- Settles O44: a decoded instruction runs after its event and writes no trace; a failure before the event leaves the
trace. -/
theorem oneEventPerDecodedInstruction : Obligations.OneEventPerDecodedInstruction := by
  intro s t h
  obtain ⟨-, ⟨e, hfail, -, rfl⟩ | ⟨w, i, hf, hd, -, hi⟩⟩ := step_leaves h
  · refine .inr ⟨fun w i hw hd => ?_, rfl⟩
    rcases hfail with hf | ⟨w', hf, hd'⟩
    · cases hf.symm.trans hw
    · cases hf.symm.trans hw
      cases hd'.symm.trans hd
  · exact .inl ⟨w, i, hf, hd, exec_leaves_trace hi⟩

/-- Settles O45: after the pc advance only a register write to register 15 changes the pc. -/
theorem controlTransfersByRegisterFifteenOnly : Obligations.ControlTransfersByRegisterFifteenOnly := by
  intro s t h
  obtain ⟨-, w, i, hf, hd, hi⟩ := step_next h
  exact ⟨w, i, hf, hd, exec_next_pc (s := s.notify w i.record) hi⟩

/-- Settles O49: the step of a STORE places the word in the memory that the next fetch and every read go to. -/
theorem storesAreSeenByTheNextFetch : Obligations.StoresAreSeenByTheNextFetch := by
  intro s t w f hf hd hp h a v
  obtain ⟨hr, -⟩ := step_next h
  rw [step_decoded hr hf hd] at h
  obtain ⟨m, hm, rfl⟩ := exec_store_next (s := s.notify w _) hp h
  have hread : m.read a = .ok v := Memory.read_of_write hm
  refine ⟨hread, fun hpc => ?_⟩
  rw [hpc] at hread
  exact hread

/-- Settles O50: the LOAD's read finds the word that the STORE has placed. -/
theorem loadAfterStoreYieldsTheValue : Obligations.LoadAfterStoreYieldsTheValue := by
  intro s t f g hp h hq haddr h0
  obtain ⟨m, hm, rfl⟩ := exec_store_next hp h
  let u := (beforeCommit (.store f) s).setMem m
  have hread : u.mem.read (aluResult defaultAlu .load g u) = .ok (s.advancePc.readReg f.target) := by
    rw [haddr]
    exact Memory.read_of_write hm
  refine ⟨(beforeCommit (.load g) u).writeReg g.target (s.advancePc.readReg f.target), ?_,
    State.readReg_writeReg_same h0⟩
  exact (exec_of_ne (i := .load g) hq).trans (commitAs_load_ok (s := beforeCommit (.load g) u) hread)

/-- Settles O51: instructions and steps carry any outputs along. -/
theorem theTraceIsNeverReadBack : Obligations.TheTraceIsNeverReadBack :=
  ⟨exec_withOutputs, step_withOutputs⟩

end Sys2Proof.Machine
end

section
/-! SUPPORT. The state that reset makes (spec/10_state.md section 6), the predicate check on the flags (R117), the host's
requests (R195), the steps that complete (R111), and the accesses of a step under any parameters (R4, R44). -/

namespace Sys2Proof.Machine

/-! Reset (R26). -/

/-- After a reset register 0 reads 0 and every other register its reset value (R11, R26). -/
theorem State.readReg_resetWith {F Op : Type} (k : Word) (c : F) (m : Memory) (r : RegIdx) :
    (State.resetWith k c m : State F Op).readReg r = if r = 0 then 0 else k := by
  by_cases h0 : r = zeroReg
  · rw [h0, State.readReg_zeroReg]
    rfl
  · by_cases h15 : r = pcReg
    · rw [h15, State.readReg_pcReg]
      rfl
    · rw [State.readReg, dif_neg h0, dif_neg h15]
      exact (Vector.getElem_replicate _).trans (if_neg h0).symm

/-! The predicate check (R117). -/

theorem State.executes_eq (s : State) (f : Fields) : s.executes f = decide (s.cond &&& f.cond ≠ 0) :=
  Bool.eq_iff_iff.2 ((s.executes_iff f).trans decide_eq_true_iff.symm)

/-- With one flag set the masks that hold it pass (R117). -/
theorem oneFlag_selects : ∀ (j : Fin 4) (mask : Flags), decide (BitVec.twoPow 4 j &&& mask ≠ 0) = mask.getLsbD j := by
  decide

/-- With all four flags set every mask but `NEVER` passes (R117). -/
theorem allFlags_select : ∀ mask : Flags, decide (15 &&& mask ≠ 0) = true ↔ mask ≠ 0 := by decide

/-- `ALWAYS` passes for every flags value that the machine can hold (R63). -/
theorem always_selects : ∀ c : Flags, legalCond c → decide (c &&& 15 ≠ 0) = true := by decide

/-! The host's requests (R195). -/

section
variable {F Op : Type} {s : State F Op} {a v : Word}

theorem hostRun_refused (hr : s.running = false) (hf : s.fault ≠ none) :
    hostRun a s = .refused .runWhileFaultLatched := by
  simp [hostRun, hr, Option.isSome_iff_ne_none, hf]

theorem hostLoadWord_ok {m : Memory} (hr : s.running = false) (hm : s.mem.write a v = .ok m) :
    hostLoadWord a v s = .next (s.setMem m) := by
  simp [hostLoadWord, hr, hm]

theorem hostLoadWord_error {e : Failure} (hr : s.running = false) (hm : s.mem.write a v = .error e) :
    hostLoadWord a v s = .refused (.hostAccessRejected a) := by
  simp [hostLoadWord, hr, hm]

theorem hostReadWord_ok {w : Word} (hr : s.running = false) (hm : s.mem.read a = .ok w) :
    hostReadWord a s = .next w := by
  simp [hostReadWord, hr, hm]

theorem hostReadWord_error {e : Failure} (hr : s.running = false) (hm : s.mem.read a = .error e) :
    hostReadWord a s = .refused (.hostAccessRejected a) := by
  simp [hostReadWord, hr, hm]

/-- A host read while not Running or held answers the value it names (R195). -/
theorem hostRead_allowed {en : Bool} (h : s.running = false ∨ en = false) (what : HostRead) :
    hostRead en what s = .next (s.hostValue what) := by
  rcases h with h | h <;> simp [hostRead, h]

end

/-! A completed step (R112). -/

/-- A step that completes goes on Running unless it sets `halted` (R111). -/
theorem step_next_running {s t : State} (h : step s = .next t) (hh : t.halted = false) : t.running = true := by
  obtain ⟨hr, w, i, -, -, hi⟩ := step_next h
  have hrun : s.running = true := (State.isRunning_iff.1 hr).1
  rcases exec_next hi with ⟨-, rfl⟩ | ⟨-, ⟨-, -, rfl⟩ | ⟨-, -, rfl⟩ | ⟨-, rfl⟩ | ⟨-, rfl⟩⟩
  · exact hrun
  · exact (State.writeReg_running ..).trans hrun
  · exact hrun
  · cases hh
  · exact (State.writeReg_running ..).trans hrun

/-! Any parameters (R4). -/

section
variable {p : Params} {d : Decoded p.flags.Flag p.opcodes.Op} {s : State p.flags.Flag p.opcodes.Op}

theorem dataAccessWith_skipped (h : p.flags.passes p.never s.cond d.cond = false) : dataAccessWith p d s = [] := by
  simp [dataAccessWith, h]

theorem dataAccessWith_unselected {e : Failure} (h : p.flags.passes p.never s.cond d.cond = true)
    (hs : d.select = .error e) : dataAccessWith p d s = [] := by
  simp [dataAccessWith, h, hs]

theorem dataAccessWith_selected {t a b : RegIdx} (h : p.flags.passes p.never s.cond d.cond = true)
    (hs : d.select = .ok (t, a, b)) :
    dataAccessWith p d s =
      executedAccess (p.opcodes.kind d.op) t (p.alu d.op (s.left a) (s.right b d.offset)).1 s := by
  rw [dataAccessWith, if_pos h, hs]

end

/-- Under the spec's parameters the record of an instruction has the accesses of the instruction. -/
theorem dataAccessWith_spec (i : Instr) (s : State) : dataAccessWith Params.spec i.record s = dataAccess i s := by
  cases h : s.executes i.fields with
  | false => exact (dataAccessWith_skipped (p := Params.spec) (d := i.record) h).trans (dataAccess_skipped h).symm
  | true =>
    exact (dataAccessWith_selected (p := Params.spec) (d := i.record) h (record_select i)).trans
      (dataAccess_executed h).symm

/-- Under the spec's parameters the accesses of a step are `stepAccesses` (R44). -/
theorem stepAccessesWith_spec (s : State) : stepAccessesWith Params.spec s = stepAccesses s := by
  rcases step_cases s with ⟨hr, -⟩ | ⟨hr, e, hf, -⟩ | ⟨hr, w, e, hf, hw, -⟩ | ⟨hr, w, i, hf, hw, -⟩
  · exact (stepAccessesOf_stopped hr).trans (stepAccessesOf_stopped hr).symm
  · exact (stepAccessesOf_unfetched hr hf).trans (stepAccessesOf_unfetched hr hf).symm
  · exact (stepAccessesOf_undecoded hr hf ((decodeWith_spec w).trans (by rw [hw]))).trans
      (stepAccessesOf_undecoded hr hf hw).symm
  · exact (stepAccessesOf_decoded hr hf ((decodeWith_spec w).trans (by rw [hw]))).trans
      ((congrArg _ (dataAccessWith_spec i s)).trans (stepAccessesOf_decoded hr hf hw).symm)

end Sys2Proof.Machine
end

section
/-! The statements about registers, reset, the host and runs (spec/10_state.md sections 1 and 6, spec/41_sequencer.md
sections 2 and 3, spec/70_reset_and_hazards.md section 2). -/

namespace Sys2Proof.Machine

/-- Settles O21: a register write reaches its register alone. -/
theorem registersHoldWhatWasWritten : Obligations.RegistersHoldWhatWasWritten := fun s r q v =>
  ⟨s.readReg_writeReg r q v, State.writeReg_cond .., State.writeReg_mem .., State.writeReg_halted ..,
    State.writeReg_running .., State.writeReg_fault .., State.writeReg_trace .., State.writeReg_listeners ..⟩

/-- Settles O22: the order of a step whose fetch and decode succeed. -/
theorem stepRunsTheDecodedInstruction : Obligations.StepRunsTheDecodedInstruction := fun _ _ _ hr hh =>
  step_decoded (State.isRunning_iff.2 ⟨hr, hh⟩)

/-- Settles O24: the AND of the flags and the mask, over the sixteen masks. -/
theorem masksSelectByFlag : Obligations.MasksSelectByFlag := by
  intro s f
  rw [s.executes_eq]
  refine ⟨fun hf => ?_, fun hf hc => ?_, fun hs => ?_, fun hs => hs ▸ oneFlag_selects 0 f.cond,
    fun hs => hs ▸ oneFlag_selects 1 f.cond, fun hs => hs ▸ oneFlag_selects 2 f.cond,
    fun hs => hs ▸ oneFlag_selects 3 f.cond, decide_eq_true_iff, fun i he => ?_, fun i t he hl => ?_⟩
  · rw [hf]
    exact decide_eq_false (not_not.2 BitVec.and_zero)
  · rw [hf]
    exact always_selects _ hc
  · rw [hs]
    exact allFlags_select _
  · rw [s.executes_eq] at he
    exact exec_of_eq (not_not.1 (of_decide_eq_false he))
  · rw [exec_is_cycle] at hl
    exact (cycle_leaves_cond hl).trans (if_neg ((s.executes_iff _).1 he))

/-- Settles O52: the state that `resetWith` makes of the reset values. -/
theorem resetLeaves : Obligations.ResetLeaves := fun s =>
  ⟨fun r => (State.readReg_resetWith regReset condReset s.mem r).trans (ite_self 0), rfl, rfl, rfl, rfl, rfl, rfl, rfl,
    rfl, rfl, rfl⟩

/-- Settles O54: each request by the two bits that admit it. -/
theorem operationsOutsideTheirState : Obligations.OperationsOutsideTheirState := by
  intro a s
  refine ⟨fun hr => ?_, fun hr => if_pos hr, hostRun_refused, rfl, rfl, rfl, fun hr v l => ?_, fun hr v l => ?_,
    fun en h => ?_⟩
  · exact stepOf_stopped (by simp [State.isRunning, hr])
  · exact ⟨if_pos hr, if_pos hr, if_pos hr, if_pos hr, fun what => if_pos (by simp [hr])⟩
  · have hr' : ¬s.running = true := by simp [hr]
    exact ⟨fun m => hostLoadWord_ok hr, fun e => hostLoadWord_error hr, fun w => hostReadWord_ok hr,
      fun e => hostReadWord_error hr, if_neg hr', if_neg hr'⟩
  · exact ⟨fun r => hostRead_allowed h (.reg r), hostRead_allowed h .pc, hostRead_allowed h .cond,
      hostRead_allowed h .halted, hostRead_allowed h .fault⟩

/-- Settles O55: the run fetches at its address the word that the host has placed there. -/
theorem loadedWordRunsAfterRun : Obligations.LoadedWordRunsAfterRun := by
  intro s a v i hr hf ha hd
  have hacc : s.mem.accepts a = true := Memory.accepts_of_lt ha
  refine ⟨_, _, hostLoadWord_ok hr (Memory.write_of_accepts hacc), hostRun_accepted hr hf, rfl, ?_⟩
  exact step_decoded rfl (Memory.read_place_same hacc) hd

/-- Settles O56: under the invariant a completed run is one that has halted, which an executed HALT alone brings about;
the loop stops at the state that its step left. -/
theorem runsCompleteByHaltOnly : Obligations.RunsCompleteByHaltOnly := by
  intro s t hs h
  have hinv : t.Inv := step_leaves_inv hs (.inl h)
  have hhalt := step_leaves_halted (.inl h)
  refine ⟨hinv.completed_iff.trans hhalt, fun hc => ?_, fun hc => ?_⟩
  · obtain ⟨hr, -⟩ := step_next h
    obtain ⟨w, f, hf, hd, hp⟩ := hhalt.1 hc.1
    obtain rfl : (beforeCommit (.halt f) (s.notify w _)).commitHalt = t :=
      Host.Outcome.next.inj ((exec_halt_of_ne (s := s.notify w _) hp).symm.trans ((step_decoded hr hf hd).symm.trans h))
    exact ⟨rfl, rfl, rfl, fun n => (runLoop_next n hr h).trans (runLoop_stopped n rfl)⟩
  · have hh : t.halted = false := Bool.eq_false_iff.2 fun hh => hc (hinv.completed_iff.2 hh)
    rw [State.phase, hh, step_next_running h hh]
    rfl

end Sys2Proof.Machine
end

section
/-! SUPPORT. A step under any parameters (R4): the ports of its event, and what it does with its decoded record. -/

namespace Sys2Proof.Machine

section
variable {p : Params} {s : State p.flags.Flag p.opcodes.Op} {w : Word} {d : Decoded p.flags.Flag p.opcodes.Op}

/-- The ports of an event carry the fields of its word as they stand there (R30). -/
theorem eventPortsWith_fields (a : Word) (hd : decodeWith p.layout p.opcodes p.flags w = .ok d) :
    let ports := eventPortsWith p { pcAddr := a, instrWord := w, instr := d }
    ports.op.toNat = (p.layout.op.extract w).toNat ∧ ports.target.toNat = (p.layout.target.extract w).toNat ∧
      ports.src1.toNat = (p.layout.src1.extract w).toNat ∧ ports.src2.toNat = (p.layout.src2.extract w).toNat ∧
      ports.offset.toNat = (p.layout.offset.extract w).toNat := by
  obtain ⟨hop, hrec⟩ := decodeWith_ok hd
  have hcut : ∀ l : BitField, ((l.extract w).setWidth l.fieldWidth).toNat = (l.extract w).toNat := fun l => by
    rw [l.setWidth_extract, l.extract_toNat_eq_bits]
  rw [hrec]
  refine ⟨?_, hcut _, hcut _, hcut _, ?_⟩
  · show (BitVec.ofNat _ (p.opcodes.number d.op)).toNat = _
    rw [hop, BitVec.toNat_ofNat, Nat.mod_eq_of_lt (BitField.extract_toNat_lt ..)]
  · show (BitVec.ofInt _ (p.layout.offset.extractSigned w)).toNat = _
    rw [BitField.extractSigned_eq_toInt, BitVec.ofInt_toInt, BitField.extract_toNat_eq_bits]

/-- A step under any parameters whose word is decoded runs the record after its event (R112). -/
theorem stepWith_decoded (hr : s.isRunning = true) (hf : s.fetch = .ok w)
    (hd : decodeWith p.layout p.opcodes p.flags w = .ok d) : stepWith p s = execWith p d (s.notify w d) :=
  stepOf_decoded hr hf hd

/-- Its accesses are the fetch and the data access of the record (R44). -/
theorem stepAccessesWith_decoded (hr : s.isRunning = true) (hf : s.fetch = .ok w)
    (hd : decodeWith p.layout p.opcodes p.flags w = .ok d) :
    stepAccessesWith p s = .read s.pc :: dataAccessWith p d s := stepAccessesOf_decoded hr hf hd

end

end Sys2Proof.Machine
end

section
/-! The statement about the machine under any parameters (spec/00_scope.md section 3, R4). -/

namespace Sys2Proof.Machine

/-- Settles O60: a decoded step is its record's, by the predicate, the selection and the class of the opcode; under the
spec's parameters the record's step is the instruction's. -/
theorem theSequencerUnderAnyParameters : Obligations.TheSequencerUnderAnyParameters := by
  refine ⟨?_, ?_, ?_, stepWith_spec, ?_, ?_, stepAccessesWith_spec, fun w => ?_, rfl⟩
  · intro p s w d hr hh hf hd e u r v t failed passes valid
    have hrun : s.isRunning = true := by simp [State.isRunning, hr, hh]
    have hstep : stepWith p s = execWith p d u := stepWith_decoded hrun hf hd
    have hacc : stepAccessesWith p s = .read s.pc :: dataAccessWith p d s := stepAccessesWith_decoded hrun hf hd
    obtain ⟨hop, hrec⟩ := decodeWith_ok hd
    refine ⟨⟨hop, congrArg Decoded.cond hrec, congrArg Decoded.target hrec, congrArg Decoded.src1 hrec,
      congrArg Decoded.src2 hrec, congrArg Decoded.offset hrec⟩, ⟨rfl, eventPortsWith_fields s.pc hd⟩,
      fun hp => ?_, fun hp hv => ?_, fun hp hv => ?_⟩
    · have hskip : p.flags.passes p.never s.cond d.cond = false :=
        Bool.eq_false_iff.2 fun h => hp ((p.flags.passes_iff ..).1 h)
      rw [hstep, hacc, dataAccessWith_skipped hskip]
      exact ⟨execWith_skipped hskip, rfl⟩
    · have hpass : p.flags.passes p.never s.cond d.cond = true := (p.flags.passes_iff ..).2 hp
      have hsel := d.select_eq.trans (if_neg hv)
      rw [hstep, hacc, dataAccessWith_unselected hpass hsel]
      exact ⟨rfl, execWith_unselected hpass hsel⟩
    · have hpass : p.flags.passes p.never s.cond d.cond = true := (p.flags.passes_iff ..).2 hp
      have hsel := d.select_eq.trans (if_pos hv)
      have hexec : execWith p d u = commitAs (p.opcodes.kind d.op) t r.1 v := execWith_selected (s := u) hpass hsel
      rw [hstep, hacc, dataAccessWith_selected hpass hsel, hexec]
      refine ⟨fun hk => ?_, fun hk => ?_, fun hk => ?_, fun hk => ?_⟩ <;> rw [hk]
      · exact ⟨rfl, fun m hm => commitAs_load_ok (s := v) hm, fun f hm => commitAs_load_error (s := v) hm⟩
      · exact ⟨rfl, fun m hm => commitAs_store_ok (s := v) hm, fun f hm => commitAs_store_error (s := v) hm⟩
      · exact ⟨rfl, rfl⟩
      · exact ⟨rfl, rfl⟩
  · intro p s w f hr hh hf hd
    obtain ⟨he, hn⟩ := decodeWith_error hd
    exact ⟨he, hn, stepOf_undecoded (by simp [State.isRunning, hr, hh]) hf hd⟩
  · exact fun p s => ⟨State.readReg_resetWith p.regReset p.condReset s.mem, rfl, rfl, rfl, rfl⟩
  · exact fun n s => congrArg (fun stp => runLoopOf stp n s) (funext stepWith_spec)
  · exact fun a s => congrArg (fun stp => actOf hostReset stp a s) (funext stepWith_spec)
  · exact (decodeWith_spec w).trans (by cases decode w <;> rfl)

end Sys2Proof.Machine
end
